-- ==== Sys2Proof/Word.lean ====
section
/-! DEFINITION. The bit-vector widths the block uses: a byte of a frame, a port sample and an emitted byte (8 bits),
the two parameters of a `P16x2` frame (16 bits), the parameter of a `P32` or `TCFG` frame (32 bits). Everything else
the spec counts or compares is a natural number (00_scope.md R9). -/

namespace Sys2Proof

/-- A byte: one frame byte, one port sample, one emitted byte (20_memory.md R55). -/
abbrev Byte := BitVec 8

/-- A 16-bit parameter of a `P16x2` frame (30_encoding.md R73). -/
abbrev Half := BitVec 16

/-- The 32-bit parameter of a `P32` or `TCFG` frame (30_encoding.md R72). -/
abbrev Word := BitVec 32

end Sys2Proof
end

