-- ==== Sys2Proof/Config.lean ====
section
/-! DEFINITION. What an implementation fixes: the constants of 00_scope.md R7, the parameters of 00_scope.md R8 as one
record that a machine is powered on with, the `CFG_RESET` draws, and the free values that continue the environment's
answers once the listed ones are used up (notes/assumptions/1.md). -/

namespace Sys2Proof

namespace Config

/-- `PROBE_COUNT` (00_scope.md R7): the width of the port. -/
def probeCount : Nat := 8

/-- `VIRTUAL_CAPACITY` (00_scope.md R7): 1 GiB taken as 2^30 samples. -/
def virtualCapacity : Nat := 1073741824

/-- `MAX_SAMPLE_RATE` (00_scope.md R7), in Hz. -/
def maxSampleRate : Nat := 1000000

/-- `BUFFER_SIZE` (00_scope.md R7): the number of run slots. -/
def bufferSize : Nat := 3500

/-- `FRAME_CAPACITY` (00_scope.md R7): one opcode byte and up to four parameter bytes. -/
def frameCapacity : Nat := 5

/-- The largest `sample_delay` a command can store: 4 * (2^32 - 1) (10_state.md R23). -/
def maxSampleDelay : Nat := 17179869180

/-- The largest budget: 2^30 samples at 10^6 polls a sample (42_capture_state_machine.md R154). -/
def maxBudget : Nat := 1073741824000000

/-- FREE VALUE: the answer of the port to a poll beyond the listed ones (20_memory.md R56; notes/assumptions/1.md). -/
opaque freePoll : Nat → Byte

/-- FREE VALUE: the level of `stop_req` at a boundary beyond the listed ones (20_memory.md R59;
notes/assumptions/1.md). -/
opaque freeStop : Nat → Bool

/-- FREE VALUE: whether the host takes a byte offered beyond the listed answers (44_decimation_filter.md R208;
notes/assumptions/1.md). -/
opaque freeAccept : Nat → Bool

/-- FREE VALUE: the bytes the surrounding dispatcher writes for QUERY_METADATA, which no source gives
(40_config_commands.md R93; notes/assumptions/5.md). -/
opaque freeMetadataReply : List Byte

end Config

/-- The opcode values: the byte of each known opcode (30_encoding.md R78). 93_implementation_defined.md I1 asks for a
replaceable argument, so the machine takes its table from `Params` and not from a constant; `OpcodeMap.sump` is the
default. -/
structure OpcodeMap where
  reset : Byte
  arm : Byte
  queryId : Byte
  queryMetadata : Byte
  xon : Byte
  xoff : Byte
  setDivider : Byte
  setCaptureSize : Byte
  setFlags : Byte
  setDelayCount : Byte
  setReadCount : Byte
  setTriggerMask0 : Byte
  setTriggerValue0 : Byte
  setTriggerConfig0 : Byte
  setTriggerMask1 : Byte
  setTriggerValue1 : Byte
  setTriggerConfig1 : Byte
  setTriggerMask2 : Byte
  setTriggerValue2 : Byte
  setTriggerConfig2 : Byte
  setTriggerMask3 : Byte
  setTriggerValue3 : Byte
  setTriggerConfig3 : Byte
  deriving DecidableEq, Repr

/-- The parameters a model takes as arguments (00_scope.md R8, 93_implementation_defined.md I1). They are fixed at
power-on and no step writes them (notes/assumptions/4.md). `PACING` is named by the spec and read by no rule, so it has
no field. -/
structure Params where
  /-- `CLOCK_FREQUENCY`, in Hz. -/
  clockFrequency : Nat
  /-- `COUNTER_LIMIT`: `none` is exact arithmetic. -/
  counterLimit : Option Nat
  /-- `STAGE_ALIAS`. -/
  stageAlias : Bool
  /-- `METADATA_REPLY`. -/
  metadataReply : List Byte
  /-- The opcode values (93_implementation_defined.md I1). -/
  opcodes : OpcodeMap
  deriving DecidableEq, Repr

/-- `CFG_RESET` (00_scope.md R8): the power-on values of the configuration fields the source gives no value for. -/
structure CfgReset where
  sampleCount : Nat
  sampleDelay : Nat
  triggerMask : Byte
  triggerValue : Byte
  triggerEnabled : Bool
  flags : Word
  deriving DecidableEq, Repr

/-- DESIGN CHOICE: the draw `State.reset` is powered on with is zero in every field (notes/assumptions/6.md). -/
def CfgReset.zero : CfgReset where
  sampleCount := 0
  sampleDelay := 0
  triggerMask := 0
  triggerValue := 0
  triggerEnabled := false
  flags := 0

/-- A draw gives each field a value of its range (10_state.md R23, R40). -/
def CfgReset.inRange (c : CfgReset) : Bool :=
  decide (c.sampleCount ≤ Config.virtualCapacity) && decide (c.sampleDelay ≤ Config.maxSampleDelay)

end Sys2Proof
end

