-- ==== Sys2Proof/Syntax.lean ====
section
/-! DEFINITION. The command frames as syntax: `Instr` has one constructor for each row of spec/opcode_table.json, with
the operands of 30_encoding.md R81 as they stand in the frame; `Op` names the known opcodes alone, and `Format` the
frame formats of 30_encoding.md R70. -/

namespace Sys2Proof

/-- The frame formats (30_encoding.md R70). -/
inductive Format where
  | imm
  | p32
  | p16x2
  | tcfg
  deriving DecidableEq, Repr

/-- The known opcodes (30_encoding.md R78), without operands. -/
inductive Op where
  | reset
  | arm
  | queryId
  | queryMetadata
  | xon
  | xoff
  | setDivider
  | setCaptureSize
  | setFlags
  | setDelayCount
  | setReadCount
  | setTriggerMask0
  | setTriggerValue0
  | setTriggerConfig0
  | setTriggerMask1
  | setTriggerValue1
  | setTriggerConfig1
  | setTriggerMask2
  | setTriggerValue2
  | setTriggerConfig2
  | setTriggerMask3
  | setTriggerValue3
  | setTriggerConfig3
  deriving DecidableEq, Repr

/-- A command frame. A `TCFG` operand is the whole 32-bit parameter `P`, of which only `P[31:24]` is read
(30_encoding.md R74), so no byte of a frame is lost. -/
inductive Instr where
  | reset
  | arm
  | queryId
  | queryMetadata
  | xon
  | xoff
  | setDivider (d : Word)
  | setCaptureSize (count4 delay4 : Half)
  | setFlags (f : Word)
  | setDelayCount (n : Word)
  | setReadCount (n : Word)
  | setTriggerMask0 (m : Word)
  | setTriggerValue0 (v : Word)
  | setTriggerConfig0 (p : Word)
  | setTriggerMask1 (m : Word)
  | setTriggerValue1 (v : Word)
  | setTriggerConfig1 (p : Word)
  | setTriggerMask2 (m : Word)
  | setTriggerValue2 (v : Word)
  | setTriggerConfig2 (p : Word)
  | setTriggerMask3 (m : Word)
  | setTriggerValue3 (v : Word)
  | setTriggerConfig3 (p : Word)
  | unknown (opcode : Byte)
  deriving DecidableEq, Repr

end Sys2Proof
end

