-- ==== Sys2Proof/Decode.lean ====
section
/-! DEFINITION. Decoding a byte list into a command frame and encoding a frame into bytes, both from the opcode map of
30_encoding.md R78, the formats of R70 and the parameter assembly of R72 and R73. The map from opcode to byte value is
an argument of everything that reads or writes a byte as an opcode (the names in `With`), because
93_implementation_defined.md I1 asks for a replaceable one, and the framer gives them the machine's own map;
`decode`, `encode` and `parameterized` are these at the SUMP values, those of spec/opcode_table.json. -/

namespace Sys2Proof

/-- The byte of a known opcode under a map. -/
def OpcodeMap.byte (m : OpcodeMap) : Op → Byte
  | .reset => m.reset
  | .arm => m.arm
  | .queryId => m.queryId
  | .queryMetadata => m.queryMetadata
  | .xon => m.xon
  | .xoff => m.xoff
  | .setDivider => m.setDivider
  | .setCaptureSize => m.setCaptureSize
  | .setFlags => m.setFlags
  | .setDelayCount => m.setDelayCount
  | .setReadCount => m.setReadCount
  | .setTriggerMask0 => m.setTriggerMask0
  | .setTriggerValue0 => m.setTriggerValue0
  | .setTriggerConfig0 => m.setTriggerConfig0
  | .setTriggerMask1 => m.setTriggerMask1
  | .setTriggerValue1 => m.setTriggerValue1
  | .setTriggerConfig1 => m.setTriggerConfig1
  | .setTriggerMask2 => m.setTriggerMask2
  | .setTriggerValue2 => m.setTriggerValue2
  | .setTriggerConfig2 => m.setTriggerConfig2
  | .setTriggerMask3 => m.setTriggerMask3
  | .setTriggerValue3 => m.setTriggerValue3
  | .setTriggerConfig3 => m.setTriggerConfig3

/-- A map under which a byte stands for one opcode at most, as a table of opcodes does. -/
def OpcodeMap.Distinct (m : OpcodeMap) : Prop := ∀ o o', m.byte o = m.byte o' → o = o'

/-- The opcode values of 30_encoding.md R78, the default map. PRESUMED by the spec itself: the SUMP/OLS values
(notes/assumptions/13.md). -/
def OpcodeMap.sump : OpcodeMap where
  reset := 0x00
  arm := 0x01
  queryId := 0x02
  queryMetadata := 0x04
  xon := 0x11
  xoff := 0x13
  setDivider := 0x80
  setCaptureSize := 0x81
  setFlags := 0x82
  setDelayCount := 0x83
  setReadCount := 0x84
  setTriggerMask0 := 0xC0
  setTriggerValue0 := 0xC1
  setTriggerConfig0 := 0xC2
  setTriggerMask1 := 0xC4
  setTriggerValue1 := 0xC5
  setTriggerConfig1 := 0xC6
  setTriggerMask2 := 0xC8
  setTriggerValue2 := 0xC9
  setTriggerConfig2 := 0xCA
  setTriggerMask3 := 0xCC
  setTriggerValue3 := 0xCD
  setTriggerConfig3 := 0xCE

/-- The SUMP value of a known opcode. -/
def opcodeOf : Op → Byte := OpcodeMap.sump.byte

/-- The format column of 30_encoding.md R78. -/
def formatOf : Op → Format
  | .reset => .imm
  | .arm => .imm
  | .queryId => .imm
  | .queryMetadata => .imm
  | .xon => .imm
  | .xoff => .imm
  | .setDivider => .p32
  | .setCaptureSize => .p16x2
  | .setFlags => .p32
  | .setDelayCount => .p32
  | .setReadCount => .p32
  | .setTriggerMask0 => .p32
  | .setTriggerValue0 => .p32
  | .setTriggerConfig0 => .tcfg
  | .setTriggerMask1 => .p32
  | .setTriggerValue1 => .p32
  | .setTriggerConfig1 => .tcfg
  | .setTriggerMask2 => .p32
  | .setTriggerValue2 => .p32
  | .setTriggerConfig2 => .tcfg
  | .setTriggerMask3 => .p32
  | .setTriggerValue3 => .p32
  | .setTriggerConfig3 => .tcfg

/-- Every known opcode, in the order of 30_encoding.md R78. -/
def allOps : List Op :=
  [.reset, .arm, .queryId, .queryMetadata, .xon, .xoff,
   .setDivider, .setCaptureSize, .setFlags, .setDelayCount, .setReadCount,
   .setTriggerMask0, .setTriggerValue0, .setTriggerConfig0] ++
  [.setTriggerMask1, .setTriggerValue1, .setTriggerConfig1,
   .setTriggerMask2, .setTriggerValue2, .setTriggerConfig2,
   .setTriggerMask3, .setTriggerValue3, .setTriggerConfig3]

/-- The length in bytes of a frame of each format (30_encoding.md R70). -/
def Format.length : Format → Nat
  | .imm => 1
  | .p32 => 5
  | .p16x2 => 5
  | .tcfg => 5

/-- The known opcode whose byte is `b` under the map `code`, or `none`: the byte is UNKNOWN (30_encoding.md R78). Under
a map that is not `Distinct` the first opcode in the order of R78 is read (notes/assumptions/13.md). -/
def opOfWith (code : Op → Byte) (b : Byte) : Option Op :=
  allOps.find? fun o => code o == b

/-- `opOfWith` under the SUMP values. -/
def opOf (b : Byte) : Option Op := opOfWith opcodeOf b

/-- `class(b)` is PARAMETERIZED (30_encoding.md R77) under the map `code`: `b` is a known opcode of a five-byte format.
Every other byte, known or unknown, is IMMEDIATE. -/
def parameterizedWith (code : Op → Byte) (b : Byte) : Bool :=
  match opOfWith code b with
  | none => false
  | some o => decide (formatOf o ≠ .imm)

/-- `parameterizedWith` under the SUMP values. -/
def parameterized (b : Byte) : Bool := parameterizedWith opcodeOf b

/-- The 32-bit parameter of a `P32` or `TCFG` frame (30_encoding.md R72). -/
def assemble32 (b1 b2 b3 b4 : Byte) : Word :=
  b1.setWidth 32 ||| (b2.setWidth 32 <<< 8) ||| (b3.setWidth 32 <<< 16) ||| (b4.setWidth 32 <<< 24)

/-- A 16-bit parameter of a `P16x2` frame (30_encoding.md R73). -/
def assemble16 (lo hi : Byte) : Half :=
  lo.setWidth 16 ||| (hi.setWidth 16 <<< 8)

/-- The frame of a known opcode with the parameter bytes `frame[1..4]`, which an immediate opcode does not have. -/
def frameOf (o : Op) (p1 p2 p3 p4 : Byte) : Instr :=
  match o with
  | .reset => .reset
  | .arm => .arm
  | .queryId => .queryId
  | .queryMetadata => .queryMetadata
  | .xon => .xon
  | .xoff => .xoff
  | .setDivider => .setDivider (assemble32 p1 p2 p3 p4)
  | .setCaptureSize => .setCaptureSize (assemble16 p1 p2) (assemble16 p3 p4)
  | .setFlags => .setFlags (assemble32 p1 p2 p3 p4)
  | .setDelayCount => .setDelayCount (assemble32 p1 p2 p3 p4)
  | .setReadCount => .setReadCount (assemble32 p1 p2 p3 p4)
  | .setTriggerMask0 => .setTriggerMask0 (assemble32 p1 p2 p3 p4)
  | .setTriggerValue0 => .setTriggerValue0 (assemble32 p1 p2 p3 p4)
  | .setTriggerConfig0 => .setTriggerConfig0 (assemble32 p1 p2 p3 p4)
  | .setTriggerMask1 => .setTriggerMask1 (assemble32 p1 p2 p3 p4)
  | .setTriggerValue1 => .setTriggerValue1 (assemble32 p1 p2 p3 p4)
  | .setTriggerConfig1 => .setTriggerConfig1 (assemble32 p1 p2 p3 p4)
  | .setTriggerMask2 => .setTriggerMask2 (assemble32 p1 p2 p3 p4)
  | .setTriggerValue2 => .setTriggerValue2 (assemble32 p1 p2 p3 p4)
  | .setTriggerConfig2 => .setTriggerConfig2 (assemble32 p1 p2 p3 p4)
  | .setTriggerMask3 => .setTriggerMask3 (assemble32 p1 p2 p3 p4)
  | .setTriggerValue3 => .setTriggerValue3 (assemble32 p1 p2 p3 p4)
  | .setTriggerConfig3 => .setTriggerConfig3 (assemble32 p1 p2 p3 p4)

/-- Why a byte list holds no whole frame. No byte value is illegal (30_encoding.md R80), so these are the only two. -/
inductive DecodeError where
  /-- There is no byte. -/
  | noByte
  /-- The list ends inside the frame of a parameterized opcode, `received` bytes after its start. -/
  | truncated (opcode : Byte) (received : Nat)
  deriving DecidableEq, Repr

/-- Read one frame off the front of a byte list, with the opcode values `code`: the first byte alone tells the
frame's length (30_encoding.md R77). The rest of the list is returned. -/
def decodeWith (code : Op → Byte) : List Byte → Except DecodeError (Instr × List Byte)
  | [] => .error .noByte
  | b :: rest =>
    match opOfWith code b with
    | none => .ok (.unknown b, rest)
    | some o =>
      match formatOf o with
      | .imm => .ok (frameOf o 0 0 0 0, rest)
      | .p32 | .p16x2 | .tcfg =>
        match rest with
        | p1 :: p2 :: p3 :: p4 :: rest' => .ok (frameOf o p1 p2 p3 p4, rest')
        | _ => .error (.truncated b (rest.length + 1))

/-- Read one frame off the front of a byte list, with the SUMP opcode values. -/
def decode (bytes : List Byte) : Except DecodeError (Instr × List Byte) :=
  decodeWith opcodeOf bytes

/-- The four bytes of a 32-bit parameter, least significant first (20_memory.md R52, 30_encoding.md R71). -/
def wordBytes (p : Word) : List Byte :=
  [p.extractLsb' 0 8, p.extractLsb' 8 8, p.extractLsb' 16 8, p.extractLsb' 24 8]

/-- The two bytes of a 16-bit parameter, least significant first (30_encoding.md R71, R73). -/
def halfBytes (p : Half) : List Byte :=
  [p.extractLsb' 0 8, p.extractLsb' 8 8]

/-- The bytes of a frame, with the opcode values `code` (30_encoding.md R70, R71, R78). -/
def encodeWith (code : Op → Byte) : Instr → List Byte
  | .reset => [code .reset]
  | .arm => [code .arm]
  | .queryId => [code .queryId]
  | .queryMetadata => [code .queryMetadata]
  | .xon => [code .xon]
  | .xoff => [code .xoff]
  | .setDivider d => code .setDivider :: wordBytes d
  | .setCaptureSize a b => code .setCaptureSize :: (halfBytes a ++ halfBytes b)
  | .setFlags f => code .setFlags :: wordBytes f
  | .setDelayCount n => code .setDelayCount :: wordBytes n
  | .setReadCount n => code .setReadCount :: wordBytes n
  | .setTriggerMask0 m => code .setTriggerMask0 :: wordBytes m
  | .setTriggerValue0 v => code .setTriggerValue0 :: wordBytes v
  | .setTriggerConfig0 p => code .setTriggerConfig0 :: wordBytes p
  | .setTriggerMask1 m => code .setTriggerMask1 :: wordBytes m
  | .setTriggerValue1 v => code .setTriggerValue1 :: wordBytes v
  | .setTriggerConfig1 p => code .setTriggerConfig1 :: wordBytes p
  | .setTriggerMask2 m => code .setTriggerMask2 :: wordBytes m
  | .setTriggerValue2 v => code .setTriggerValue2 :: wordBytes v
  | .setTriggerConfig2 p => code .setTriggerConfig2 :: wordBytes p
  | .setTriggerMask3 m => code .setTriggerMask3 :: wordBytes m
  | .setTriggerValue3 v => code .setTriggerValue3 :: wordBytes v
  | .setTriggerConfig3 p => code .setTriggerConfig3 :: wordBytes p
  | .unknown b => [b]

/-- The bytes of a frame, with the SUMP opcode values. -/
def encode (i : Instr) : List Byte := encodeWith opcodeOf i

/-- The bytes of an instruction as spec/opcode_table.json numbers its bits: byte `k` is bits `8k+7 .. 8k` of `w`, the
first byte first, up to the longest frame, with every bit above `nbits` zero. -/
def tableBytes (nbits w : Nat) : List Byte :=
  [BitVec.ofNat 8 (w % 2 ^ nbits), BitVec.ofNat 8 ((w % 2 ^ nbits) / 2 ^ 8),
   BitVec.ofNat 8 ((w % 2 ^ nbits) / 2 ^ 16), BitVec.ofNat 8 ((w % 2 ^ nbits) / 2 ^ 24),
   BitVec.ofNat 8 ((w % 2 ^ nbits) / 2 ^ 32)]

/-- The instruction the decoder reads from an opcode-table word. -/
def decodeTableWord (nbits w : Nat) : Option Instr :=
  match decode (tableBytes nbits w) with
  | .ok (i, _) => some i
  | .error _ => none

end Sys2Proof
end

