-- ==== Sys2Proof/Machine/State.lean ====
section
/-! DEFINITION. The state of the capture core as plain data: everything 10_state.md names, the parameters of
00_scope.md R8, and the interfaces of 00_scope.md R6; the fault and refusal reasons; the state at power-on. -/

namespace Sys2Proof.Machine

/-- The sequencer state `seq` (10_state.md R21). -/
inductive Seq where
  | idle
  | trigWait
  | capFirst
  | capLoop
  | report
  deriving DecidableEq, Repr

/-- The counters that `COUNTER_LIMIT` bounds: the faulting step names one of them. The first four are those of
60_exceptions.md R223; the last three, `d + 1` of SET_DIVIDER and the products `n * 4` for `sample_count` and
`sample_delay`, are counters by 00_scope.md R9 with 92_eei_decisions.md D4 and 93_implementation_defined.md I4
(notes/assumptions/22.md). -/
inductive Counter where
  | capBudget
  | runCount
  | taken
  | repC
  | divisor
  | countProduct
  | delayProduct
  deriving DecidableEq, Repr

/-- The `fault` register (10_state.md R38, 60_exceptions.md R221). -/
inductive FaultReg where
  | none
  | rateUndefined
  | counterLimit (counter : Counter)
  deriving DecidableEq, Repr

/-- The configuration registers (10_state.md R23). -/
structure CaptureConfig where
  sampleCount : Nat
  sampleDelay : Nat
  sampleRate : Nat
  rateValid : Bool
  triggerMask : Byte
  triggerValue : Byte
  triggerEnabled : Bool
  flags : Word
  deriving DecidableEq, Repr

/-- The latches of the arm step (10_state.md R31). -/
structure TriggerState where
  mask : Byte
  value : Byte
  enabled : Bool
  capRate : Nat
  capBudget : Nat
  deriving DecidableEq, Repr

/-- A run: `count` consecutive samples equal to `value` (10_state.md R32, 43_run_length_encoder.md R180). -/
structure Run where
  value : Byte
  count : Nat
  deriving DecidableEq, Repr

/-- The run buffer as a list of (slot, run) pairs in one canonical form: slots strictly rising and below
`BUFFER_SIZE`, and no run equal to what an unlisted slot reads as (notes/assumptions/8.md). -/
abbrev Memory := List (Nat × Run)

/-- The capture's state: the run buffer and `cursor` (10_state.md R32), `prev` and `taken` (R35). -/
structure Capture where
  runs : Memory
  cursor : Nat
  prev : Byte
  taken : Nat
  deriving DecidableEq, Repr

/-- The decimation registers `rep_j`, `rep_k`, `rep_c` (10_state.md R36). -/
structure Report where
  j : Nat
  k : Nat
  c : Nat
  deriving DecidableEq, Repr

/-- The result of one byte read by the framer: a byte, or a timeout (30_encoding.md R75). -/
inductive LinkEvent where
  | byte (b : Byte)
  | timeout
  deriving DecidableEq, Repr

/-- The environment's answers still to come, one list an interface; when a list is used up, the next answer is a free
value of `Config` at `drawn`, which counts them (notes/assumptions/1.md). These are the model's own fields. -/
structure Env where
  /-- what the port returns to the next polls (20_memory.md R56) -/
  polls : List Byte
  /-- the level of `stop_req` at the next boundaries that sample it (20_memory.md R59) -/
  stops : List Bool
  /-- whether the host takes the next bytes offered to it (44_decimation_filter.md R208) -/
  accepts : List Bool
  /-- how many free values have been drawn -/
  drawn : Nat
  deriving DecidableEq, Repr

/-- The mode of the framer (10_state.md R37), a view of the received bytes. -/
inductive FramerMode where
  | waitingOpcode
  | accumulating (opcode : Byte) (received : Nat)
  deriving DecidableEq, Repr

/-- The whole machine. `params` is fixed at power-on; `frame` holds the bytes received of the frame in progress, so
`have` is its length (notes/assumptions/14.md); `cmd` holds the byte reads still to come and `out` the bytes written so
far, oldest first (notes/assumptions/2.md and 3.md). -/
structure State where
  params : Params
  cfg : CaptureConfig
  ts : TriggerState
  cap : Capture
  rep : Report
  frame : List Byte
  seq : Seq
  fault : FaultReg
  cmd : List LinkEvent
  env : Env
  out : List Byte
  deriving DecidableEq, Repr

/-- Why a step answers no next state. -/
inductive Fault where
  /-- Raised by `step` of a block whose `fault` register holds RateUndefined: a faulted block takes no further step
  (60_exceptions.md R224). Safe: nothing is claimed past the fault. -/
  | rateUndefined
  /-- Raised by `step` of a block whose `fault` register holds CounterLimit (60_exceptions.md R224). Safe. -/
  | counterLimit (counter : Counter)
  /-- Raised by a read or write of a run slot that does not exist, `i` of 3500 or more (20_memory.md R50,
  notes/assumptions/10.md). No reachable state raises it. Safe. -/
  | noSuchSlot (i : Nat)
  deriving DecidableEq, Repr

/-- Why an instruction has no meaning. -/
inductive Refusal where
  /-- Raised by an arm of `exec` whose instruction has no meaning yet; no arm is one. Safe. -/
  | notModelled (mnemonic : String)
  deriving DecidableEq, Repr

/-- The spec's defaults of the parameters (00_scope.md R8, 93_implementation_defined.md I1). PRESUMED: the spec takes
100 MHz and the SUMP opcode values from general knowledge itself (notes/assumptions/4.md, 13.md). -/
def defaultParams : Params where
  clockFrequency := 100000000
  counterLimit := none
  stageAlias := false
  metadataReply := Config.freeMetadataReply
  opcodes := OpcodeMap.sump

/-- The configuration at power-on (10_state.md R40): `rate_valid` is 0, the other fields are the `CFG_RESET` draw.
DESIGN CHOICE: `sample_rate`, unspecified and not readable, is 0 (notes/assumptions/7.md). -/
def CaptureConfig.powerOn (c : CfgReset) : CaptureConfig where
  sampleCount := c.sampleCount
  sampleDelay := c.sampleDelay
  sampleRate := 0
  rateValid := false
  triggerMask := c.triggerMask
  triggerValue := c.triggerValue
  triggerEnabled := c.triggerEnabled
  flags := c.flags

/-- Power-on reset (10_state.md R40, 70_reset_and_hazards.md R240) with the given parameters and `CFG_RESET` draw.
DESIGN CHOICE: what the spec calls unspecified is zero (notes/assumptions/7.md), and the environment has sent, listed
and taken nothing yet (notes/assumptions/1.md, 2.md, 3.md). -/
def State.powerOn (p : Params) (c : CfgReset) : State where
  params := p
  cfg := CaptureConfig.powerOn c
  ts := ⟨0, 0, false, 0, 0⟩
  cap := ⟨[], 0, 0, 0⟩
  rep := ⟨0, 0, 0⟩
  frame := []
  seq := .idle
  fault := .none
  cmd := []
  env := ⟨[], [], [], 0⟩
  out := []

/-- The machine right after reset: powered on with the spec's default parameters (notes/assumptions/4.md) and the zero
`CFG_RESET` draw (DESIGN CHOICE, notes/assumptions/6.md). -/
def State.reset : State := State.powerOn defaultParams CfgReset.zero

end Sys2Proof.Machine
end

