-- ==== Sys2Proof/Machine/Ops.lean ====
section
/-! DEFINITION. The named operations: reads and writes of the run buffer, the updates of State, the environment's
primitives `PortRead`, `StopSampled` and `Emit` (00_scope.md R10), and raising a fault. -/

namespace Sys2Proof.Machine

/-- What a step or a meaning answers. -/
abbrev Result := Host.Outcome State Fault Refusal

/-! ## The run buffer -/

/-- What a slot that nothing has written reads as. DESIGN CHOICE: the spec leaves it unspecified and no rule reads it
(43_run_length_encoder.md R184; notes/assumptions/8.md). -/
def unwrittenRun : Run := ⟨0, 0⟩

/-- The contents of slot `i`. -/
def Memory.read : Memory → Nat → Run
  | [], _ => unwrittenRun
  | (k, r) :: m, i => if k = i then r else Memory.read m i

/-- The buffer with slot `i` holding `r`, in canonical form. -/
def Memory.write : Memory → Nat → Run → Memory
  | [], i, r => if r = unwrittenRun then [] else [(i, r)]
  | (k, x) :: m, i, r =>
    if i < k then (if r = unwrittenRun then (k, x) :: m else (i, r) :: (k, x) :: m)
    else if i = k then (if r = unwrittenRun then m else (i, r) :: m)
    else (k, x) :: Memory.write m i r

/-- The canonical form from slot `lo` on: slots strictly rising, below `BUFFER_SIZE`, none as an unlisted slot. -/
def Memory.wfFrom : Nat → Memory → Bool
  | _, [] => true
  | lo, (k, r) :: m =>
    decide (lo ≤ k) && decide (k < Config.bufferSize) && decide (r ≠ unwrittenRun) && Memory.wfFrom (k + 1) m

/-- The run buffer is in its canonical form. -/
def Memory.wf (m : Memory) : Bool := Memory.wfFrom 0 m

/-- `BufRead(i)` (00_scope.md R10): `none` when there is no slot `i` (20_memory.md R50; notes/assumptions/10.md). -/
def bufRead (m : Memory) (i : Nat) : Option Run :=
  if i < Config.bufferSize then some (m.read i) else none

/-- `BufWrite(i, r)` (00_scope.md R10): `none` when there is no slot `i`. -/
def bufWrite (m : Memory) (i : Nat) (r : Run) : Option Memory :=
  if i < Config.bufferSize then some (m.write i r) else none

/-! ## Updates of State -/

/-- `cfg.f <- v` (00_scope.md R10), with the whole new configuration. -/
def State.withCfg (s : State) (c : CaptureConfig) : State := { s with cfg := c }

/-- The latches of the arm step. -/
def State.withTs (s : State) (l : TriggerState) : State := { s with ts := l }

/-- The capture's state. -/
def State.withCap (s : State) (c : Capture) : State := { s with cap := c }

/-- The decimation registers. -/
def State.withRep (s : State) (r : Report) : State := { s with rep := r }

/-- The bytes received of the frame in progress. -/
def State.withFrame (s : State) (f : List Byte) : State := { s with frame := f }

/-- `seq <- q` (00_scope.md R10). -/
def State.withSeq (s : State) (q : Seq) : State := { s with seq := q }

/-- The byte reads still to come. -/
def State.withCmd (s : State) (c : List LinkEvent) : State := { s with cmd := c }

/-- The environment's answers still to come. -/
def State.withEnv (s : State) (e : Env) : State := { s with env := e }

/-- Append bytes to `out`, after everything written before (20_memory.md R53). -/
def State.writeOut (s : State) (bs : List Byte) : State := { s with out := s.out ++ bs }

/-- `raise Fault(reason)` (00_scope.md R10, 60_exceptions.md R221): the reason is recorded and nothing else is written
(notes/assumptions/11.md). There is no trap entry, no saved state and no return from a fault (60_exceptions.md R224,
R227): `step` answers no further step of a faulted block. -/
def State.raiseFault (s : State) (r : FaultReg) : State := { s with fault := r }

/-! ## The environment -/

/-- `PortRead()` (00_scope.md R10, 20_memory.md R56): the answer, and the state with that answer used up. -/
def portRead (s : State) : Byte × State :=
  match s.env.polls with
  | b :: rest => (b, s.withEnv { s.env with polls := rest })
  | [] => (Config.freePoll s.env.drawn, s.withEnv { s.env with drawn := s.env.drawn + 1 })

/-- `StopSampled()` (00_scope.md R10, 20_memory.md R59): the level of `stop_req` at this boundary, and the state with
that answer used up. The block never writes the level. -/
def stopSampled (s : State) : Bool × State :=
  match s.env.stops with
  | b :: rest => (b, s.withEnv { s.env with stops := rest })
  | [] => (Config.freeStop s.env.drawn, s.withEnv { s.env with drawn := s.env.drawn + 1 })

/-- The environment's answer to an offered byte (44_decimation_filter.md R208), and the state with it used up. -/
def hostTakes (s : State) : Bool × State :=
  match s.env.accepts with
  | b :: rest => (b, s.withEnv { s.env with accepts := rest })
  | [] => (Config.freeAccept s.env.drawn, s.withEnv { s.env with drawn := s.env.drawn + 1 })

/-- `Emit(b)` (00_scope.md R10): whether the environment took the byte at this attempt, and the state, with `b` on
`out` if it did. A caller that is told no tries again (notes/assumptions/16.md). -/
def emit (b : Byte) (s : State) : Bool × State :=
  let (taken, s') := hostTakes s
  (taken, if taken then s'.writeOut [b] else s')

end Sys2Proof.Machine
end

