-- ==== Sys2Proof/Machine/Operands.lean ====
section
/-! DEFINITION. How a command reads its parameter, and the arithmetic on it: exact, on the naturals (00_scope.md R9). -/

namespace Sys2Proof.Machine

/-- Bits [7:0] of a 32-bit parameter, the width of the port (10_state.md R27, R28). -/
def lowByte (p : Word) : Byte := p.extractLsb' 0 8

/-- The trigger-configuration byte `frame[4] = P[31:24]` (30_encoding.md R74). -/
def configByte (p : Word) : Byte := p.extractLsb' 24 8

/-- A count parameter times 4, exact (40_config_commands.md R99, R101, R102). -/
def times4 (n : Nat) : Nat := n * 4

/-- `sample_count` as every setter stores it (10_state.md R24): clamped to `VIRTUAL_CAPACITY`. -/
def clampCount (n : Nat) : Nat := min n Config.virtualCapacity

/-- The quotient of SET_DIVIDER (40_config_commands.md R96, R97): floor division, `d + 1` exact. -/
def dividerQuotient (clock : Nat) (d : Word) : Nat := clock / (d.toNat + 1)

/-- `cap_rate` (42_capture_state_machine.md R153): floor division. -/
def captureRate (sampleRate : Nat) : Nat := Config.maxSampleRate / sampleRate

/-- `cap_budget` (42_capture_state_machine.md R154): exact. -/
def captureBudget (sampleCount capRate : Nat) : Nat := sampleCount * capRate

end Sys2Proof.Machine
end

