-- ==== Sys2Proof/Machine/Flags.lean ====
section
/-! DEFINITION. The status bits of the block (10_state.md R38; it has no condition codes) and the tests the sequencer
makes. -/

namespace Sys2Proof.Machine

/-- `busy` is 1 exactly when `seq != IDLE` (10_state.md R21). -/
def State.busy (s : State) : Bool := decide (s.seq ≠ .idle)

/-- `have`: the number of bytes received of the frame in progress (10_state.md R37). -/
def State.haveBytes (s : State) : Nat := s.frame.length

/-- The framer's mode (10_state.md R37). -/
def State.framerMode (s : State) : FramerMode :=
  match s.frame with
  | [] => .waitingOpcode
  | b :: _ => .accumulating b s.frame.length

/-- `rate_valid` and `sample_rate` after a SET_DIVIDER of quotient `q` (40_config_commands.md R96, R98). A quotient of
zero leaves `sample_rate` as it was, not readable (notes/assumptions/18.md). -/
def rateAfter (c : CaptureConfig) (q : Nat) : CaptureConfig :=
  if q = 0 then { c with rateValid := false }
  else { c with sampleRate := min q Config.maxSampleRate, rateValid := true }

/-- `trigger_enabled` after a SET_TRIGGER_CONFIG with configuration byte `t` (40_config_commands.md R105): bit 2,
serial mode, forces 0; otherwise bit 3. -/
def enableAfter (t : Byte) : Bool := if t.getLsbD 2 then false else t.getLsbD 3

/-- Whether a value passes `COUNTER_LIMIT` (00_scope.md R9, 60_exceptions.md R223); never when the limit is absent. -/
def overLimit (limit : Option Nat) (n : Nat) : Bool :=
  match limit with
  | none => false
  | some l => decide (l < n)

/-- `r`, unless the counter `c`, at its new value `n`, passes `COUNTER_LIMIT`: then the fault is raised instead of
anything being written (00_scope.md R9, 60_exceptions.md R223; notes/assumptions/11.md). -/
def underLimit (c : Counter) (n : Nat) (s : State) (r : Result) : Result :=
  if overLimit s.params.counterLimit n then .next (s.raiseFault (.counterLimit c)) else r

/-- The trigger wait runs only if the trigger is enabled and its mask is not zero (41_trigger_matcher.md R133). -/
def waitsForTrigger (l : TriggerState) : Bool := l.enabled && decide (l.mask ≠ 0)

/-- The boundary test of the capture loop (42_capture_state_machine.md R157), given the sampled stop level. -/
def boundaryStop (stop : Bool) (l : TriggerState) (c : Capture) : Bool :=
  stop || decide (l.capBudget ≤ c.taken) || decide (c.cursor = Config.bufferSize - 1)

end Sys2Proof.Machine
end

