-- ==== Sys2Proof/Machine/Report.lean ====
section
/-! DEFINITION. The decimation_filter: the set-up of the report and its steps (44_decimation_filter.md). -/

namespace Sys2Proof.Machine

/-- `report_init()` and `seq <- REPORT` (44_decimation_filter.md R201, 42_capture_state_machine.md R157). DEDUCED: the
read of the last run, in the step that leaves CAP_LOOP, is R201's, against 20_memory.md R51 (notes/assumptions/23.md). -/
def reportInit (s : State) : Result :=
  match bufRead s.cap.runs s.cap.cursor with
  | none => .fault (.noSuchSlot s.cap.cursor)
  | some r => .next ((s.withRep ⟨s.cap.cursor, r.count, 0⟩).withSeq .report)

/-- The walk's `rep_c == cap_rate` case (44_decimation_filter.md R202): emit the run's value and restart the counter.
A byte that the environment does not take leaves the registers as they were, so the next step offers it again (R208,
notes/assumptions/16.md). -/
def emitSample (s : State) : Result :=
  match bufRead s.cap.runs s.rep.j with
  | none => .fault (.noSuchSlot s.rep.j)
  | some r =>
    let (taken, s') := emit r.value s
    if taken then .next (s'.withRep ⟨s.rep.j, s.rep.k - 1, 0⟩) else .next s'

/-- Walk one raw sample of run `rep_j` (44_decimation_filter.md R202), or fault when `rep_c + 1` passes
`COUNTER_LIMIT` (60_exceptions.md R223). -/
def walkSample (s : State) : Result :=
  underLimit .repC (s.rep.c + 1) s
    (if s.rep.c + 1 = s.ts.capRate then emitSample s
    else .next (s.withRep ⟨s.rep.j, s.rep.k - 1, s.rep.c + 1⟩))

/-- Go on to the next older run; `rep_c` carries over (44_decimation_filter.md R202, 90_conflicts.md C3). -/
def nextRun (s : State) : Result :=
  match bufRead s.cap.runs (s.rep.j - 1) with
  | none => .fault (.noSuchSlot (s.rep.j - 1))
  | some r => .next (s.withRep ⟨s.rep.j - 1, r.count, s.rep.c⟩)

/-- `report_end()` (44_decimation_filter.md R203): a partial group is dropped. -/
def reportEnd (s : State) : Result := .next (s.withSeq .idle)

/-- One step in REPORT (44_decimation_filter.md R202). -/
def reportStep (s : State) : Result :=
  if 0 < s.rep.k then walkSample s
  else if 0 < s.rep.j then nextRun s
  else reportEnd s

end Sys2Proof.Machine
end

