-- ==== Sys2Proof/Machine/Capture.lean ====
section
/-! DEFINITION. The capture_state_machine and the run_length_encoder: ARM's arm step, the first sample, the boundary
test and the poll of the capture loop (42_capture_state_machine.md, 43_run_length_encoder.md). -/

namespace Sys2Proof.Machine

/-- The latches the arm step writes (10_state.md R31, 42_capture_state_machine.md R151). -/
def armedLatches (c : CaptureConfig) : TriggerState where
  mask := c.triggerMask
  value := c.triggerValue
  enabled := c.triggerEnabled
  capRate := captureRate c.sampleRate
  capBudget := captureBudget c.sampleCount (captureRate c.sampleRate)

/-- ARM: `arm_step()` (40_config_commands.md R91, 42_capture_state_machine.md R151). RateUndefined is checked before
anything else, CounterLimit on the budget second (60_exceptions.md R226). The capture and the report that follow are
the sequencer's own steps. -/
def execArm (s : State) : Result :=
  if s.cfg.rateValid = false then .next (s.raiseFault .rateUndefined)
  else
    let l := armedLatches s.cfg
    underLimit .capBudget l.capBudget s
      (.next ((s.withTs l).withSeq (if waitsForTrigger l then .trigWait else .capFirst)))

/-- `rle_first()` with the polled sample (43_run_length_encoder.md R181). Slots other than 0 are not written
(notes/assumptions/9.md). -/
def rleFirst (sample : Byte) (s : State) : Result :=
  match bufWrite s.cap.runs 0 ⟨sample, 1⟩ with
  | none => .fault (.noSuchSlot 0)
  | some m => .next (s.withCap ⟨m, 0, sample, 1⟩)

/-- One step in CAP_FIRST (42_capture_state_machine.md R156): one poll, and `stop_req` is not sampled.
DEDUCED: the count of one, which `taken` takes too, faults at a `COUNTER_LIMIT` of zero. DESIGN CHOICE: the fault names the
run count (notes/assumptions/12.md). -/
def capFirstStep (s : State) : Result :=
  let (sample, s1) := portRead s
  underLimit .runCount 1 s1 (rleFirst sample (s1.withSeq .capLoop))

/-- The capture after `if s != prev: cursor <- cursor + 1; BufWrite(cursor, (s, 0))` (43_run_length_encoder.md R182);
`none` when there is no such slot. -/
def openRun (sample : Byte) (c : Capture) : Option Capture :=
  if sample = c.prev then some c
  else (bufWrite c.runs (c.cursor + 1) ⟨sample, 0⟩).map fun m => { c with runs := m, cursor := c.cursor + 1 }

/-- The capture after the rest of `rle_update` (43_run_length_encoder.md R182): the current run `r` counts one more
sample. -/
def countSample (sample : Byte) (r : Run) (c : Capture) : Option Capture :=
  (bufWrite c.runs c.cursor ⟨r.value, r.count + 1⟩).map fun m =>
    { c with runs := m, prev := sample, taken := c.taken + 1 }

/-- `rle_update(s)` (43_run_length_encoder.md R182). A count that would pass `COUNTER_LIMIT` raises the fault instead
of being written, the run's count before `taken` (60_exceptions.md R223; notes/assumptions/11.md and 12.md). DEDUCED: the
read of the current run, here in CAP_LOOP, is R182's, against 20_memory.md R51 (notes/assumptions/23.md). -/
def rleUpdate (sample : Byte) (s : State) : Result :=
  match openRun sample s.cap with
  | none => .fault (.noSuchSlot (s.cap.cursor + 1))
  | some c =>
    match bufRead c.runs c.cursor with
    | none => .fault (.noSuchSlot c.cursor)
    | some r =>
      underLimit .runCount (r.count + 1) s
        (underLimit .taken (c.taken + 1) s
          (match countSample sample r c with
          | none => .fault (.noSuchSlot c.cursor)
          | some c' => .next (s.withCap c')))

/-- `poll_step()` (42_capture_state_machine.md R158). -/
def pollStep (s : State) : Result :=
  let (sample, s1) := portRead s
  rleUpdate sample s1

/-- One step in CAP_LOOP (42_capture_state_machine.md R157): the boundary test, then the report's set-up or a poll. -/
def capLoopStep (s : State) : Result :=
  let (stop, s1) := stopSampled s
  if boundaryStop stop s1.ts s1.cap then reportInit s1 else pollStep s1

end Sys2Proof.Machine
end

