-- ==== Sys2Proof/Machine/Immediate.lean ====
section
/-! DEFINITION. The immediate commands other than ARM (40_config_commands.md section 1) and UNKNOWN (R115). -/

namespace Sys2Proof.Machine

/-- A command with no effect on the block. -/
def noEffect (s : State) : Result := .next s

/-- RESET (40_config_commands.md R90): no field changes. -/
def execReset (s : State) : Result := noEffect s

/-- The identity string `"1ALS"` in string order (40_config_commands.md R92). -/
def identityReply : List Byte := [0x31, 0x41, 0x4C, 0x53]

/-- QUERY_ID (40_config_commands.md R92): the dispatcher writes the identity string (notes/assumptions/3.md). -/
def execQueryId (s : State) : Result := .next (s.writeOut identityReply)

/-- QUERY_METADATA (40_config_commands.md R93): the dispatcher writes `METADATA_REPLY` (notes/assumptions/3.md and
5.md). -/
def execQueryMetadata (s : State) : Result := .next (s.writeOut s.params.metadataReply)

/-- XON (40_config_commands.md R94): no effect. -/
def execXon (s : State) : Result := noEffect s

/-- XOFF (40_config_commands.md R95): no effect. -/
def execXoff (s : State) : Result := noEffect s

/-- UNKNOWN (40_config_commands.md R115): ignored, whatever the byte. -/
def execUnknown (_opcode : Byte) (s : State) : Result := noEffect s

end Sys2Proof.Machine
end

