-- ==== Sys2Proof/Machine/RateCount.lean ====
section
/-! DEFINITION. The rate, count, delay and flag setters (40_config_commands.md section 2). -/

namespace Sys2Proof.Machine

/-- SET_DIVIDER (40_config_commands.md R96 to R98). DEDUCED: `d + 1` is a counter that `COUNTER_LIMIT` bounds
(notes/assumptions/22.md). -/
def execSetDivider (d : Word) (s : State) : Result :=
  underLimit .divisor (d.toNat + 1) s
    (.next (s.withCfg (rateAfter s.cfg (dividerQuotient s.params.clockFrequency d))))

/-- SET_CAPTURE_SIZE (40_config_commands.md R99). DEDUCED: both products are counters that `COUNTER_LIMIT` bounds.
DESIGN CHOICE: the first is tested first (notes/assumptions/22.md). -/
def execSetCaptureSize (count4 delay4 : Half) (s : State) : Result :=
  underLimit .countProduct (times4 count4.toNat) s
    (underLimit .delayProduct (times4 delay4.toNat) s
      (.next (s.withCfg { s.cfg with
        sampleCount := clampCount (times4 count4.toNat), sampleDelay := times4 delay4.toNat })))

/-- SET_FLAGS (40_config_commands.md R100). -/
def execSetFlags (f : Word) (s : State) : Result := .next (s.withCfg { s.cfg with flags := f })

/-- SET_DELAY_COUNT (40_config_commands.md R101): no clamp. DEDUCED: `n * 4` is a counter that `COUNTER_LIMIT` bounds
(notes/assumptions/22.md). -/
def execSetDelayCount (n : Word) (s : State) : Result :=
  underLimit .delayProduct (times4 n.toNat) s (.next (s.withCfg { s.cfg with sampleDelay := times4 n.toNat }))

/-- SET_READ_COUNT (40_config_commands.md R102). DEDUCED: `n * 4`, before the clamp, is a counter that `COUNTER_LIMIT`
bounds (notes/assumptions/22.md). -/
def execSetReadCount (n : Word) (s : State) : Result :=
  underLimit .countProduct (times4 n.toNat) s
    (.next (s.withCfg { s.cfg with sampleCount := clampCount (times4 n.toNat) }))

end Sys2Proof.Machine
end

