-- ==== Sys2Proof/Machine/TriggerCommands.lean ====
section
/-! DEFINITION. The trigger setters: stage 0 (40_config_commands.md section 3), and stages 1 to 3 (section 4), which
act as stage 0 when `STAGE_ALIAS` is set and have no effect otherwise. -/

namespace Sys2Proof.Machine

/-- `cfg.trigger_mask <- m[7:0]` (40_config_commands.md R103). -/
def setMask (m : Word) (s : State) : State := s.withCfg { s.cfg with triggerMask := lowByte m }

/-- `cfg.trigger_value <- v[7:0]` (40_config_commands.md R104). -/
def setValue (v : Word) (s : State) : State := s.withCfg { s.cfg with triggerValue := lowByte v }

/-- The pseudocode of 40_config_commands.md R105. -/
def setEnable (p : Word) (s : State) : State :=
  s.withCfg { s.cfg with triggerEnabled := enableAfter (configByte p) }

/-- `if STAGE_ALIAS: f else skip` (40_config_commands.md R106 to R114). -/
def onAlias (f : State → State) (s : State) : Result :=
  .next (if s.params.stageAlias then f s else s)

/-- SET_TRIGGER_MASK_0 (40_config_commands.md R103). -/
def execSetTriggerMask0 (m : Word) (s : State) : Result := .next (setMask m s)

/-- SET_TRIGGER_VALUE_0 (40_config_commands.md R104). -/
def execSetTriggerValue0 (v : Word) (s : State) : Result := .next (setValue v s)

/-- SET_TRIGGER_CONFIG_0 (40_config_commands.md R105). -/
def execSetTriggerConfig0 (p : Word) (s : State) : Result := .next (setEnable p s)

/-- SET_TRIGGER_MASK_1 (40_config_commands.md R106). -/
def execSetTriggerMask1 (m : Word) (s : State) : Result := onAlias (setMask m) s

/-- SET_TRIGGER_VALUE_1 (40_config_commands.md R107). -/
def execSetTriggerValue1 (v : Word) (s : State) : Result := onAlias (setValue v) s

/-- SET_TRIGGER_CONFIG_1 (40_config_commands.md R108). -/
def execSetTriggerConfig1 (p : Word) (s : State) : Result := onAlias (setEnable p) s

/-- SET_TRIGGER_MASK_2 (40_config_commands.md R109). -/
def execSetTriggerMask2 (m : Word) (s : State) : Result := onAlias (setMask m) s

/-- SET_TRIGGER_VALUE_2 (40_config_commands.md R110). -/
def execSetTriggerValue2 (v : Word) (s : State) : Result := onAlias (setValue v) s

/-- SET_TRIGGER_CONFIG_2 (40_config_commands.md R111). -/
def execSetTriggerConfig2 (p : Word) (s : State) : Result := onAlias (setEnable p) s

/-- SET_TRIGGER_MASK_3 (40_config_commands.md R112). -/
def execSetTriggerMask3 (m : Word) (s : State) : Result := onAlias (setMask m) s

/-- SET_TRIGGER_VALUE_3 (40_config_commands.md R113). -/
def execSetTriggerValue3 (v : Word) (s : State) : Result := onAlias (setValue v) s

/-- SET_TRIGGER_CONFIG_3 (40_config_commands.md R114). -/
def execSetTriggerConfig3 (p : Word) (s : State) : Result := onAlias (setEnable p) s

end Sys2Proof.Machine
end

