-- ==== Sys2Proof/Machine/Dispatch.lean ====
section
/-! DEFINITION. Dispatch of a command frame (40_config_commands.md R116): one arm a constructor, each one call of the
instruction's meaning. -/

namespace Sys2Proof.Machine

/-- `dispatch(frame)` (30_encoding.md R75): the effect of a command frame is one step. -/
def exec (i : Instr) (s : State) : Host.Outcome State Fault Refusal :=
  match i with
  | .reset => Sys2Proof.Machine.execReset s
  | .arm => Sys2Proof.Machine.execArm s
  | .queryId => Sys2Proof.Machine.execQueryId s
  | .queryMetadata => Sys2Proof.Machine.execQueryMetadata s
  | .xon => Sys2Proof.Machine.execXon s
  | .xoff => Sys2Proof.Machine.execXoff s
  | .setDivider d => Sys2Proof.Machine.execSetDivider d s
  | .setCaptureSize count4 delay4 => Sys2Proof.Machine.execSetCaptureSize count4 delay4 s
  | .setFlags f => Sys2Proof.Machine.execSetFlags f s
  | .setDelayCount n => Sys2Proof.Machine.execSetDelayCount n s
  | .setReadCount n => Sys2Proof.Machine.execSetReadCount n s
  | .setTriggerMask0 m => Sys2Proof.Machine.execSetTriggerMask0 m s
  | .setTriggerValue0 v => Sys2Proof.Machine.execSetTriggerValue0 v s
  | .setTriggerConfig0 p => Sys2Proof.Machine.execSetTriggerConfig0 p s
  | .setTriggerMask1 m => Sys2Proof.Machine.execSetTriggerMask1 m s
  | .setTriggerValue1 v => Sys2Proof.Machine.execSetTriggerValue1 v s
  | .setTriggerConfig1 p => Sys2Proof.Machine.execSetTriggerConfig1 p s
  | .setTriggerMask2 m => Sys2Proof.Machine.execSetTriggerMask2 m s
  | .setTriggerValue2 v => Sys2Proof.Machine.execSetTriggerValue2 v s
  | .setTriggerConfig2 p => Sys2Proof.Machine.execSetTriggerConfig2 p s
  | .setTriggerMask3 m => Sys2Proof.Machine.execSetTriggerMask3 m s
  | .setTriggerValue3 v => Sys2Proof.Machine.execSetTriggerValue3 v s
  | .setTriggerConfig3 p => Sys2Proof.Machine.execSetTriggerConfig3 p s
  | .unknown opcode => Sys2Proof.Machine.execUnknown opcode s

end Sys2Proof.Machine
end

