-- ==== Sys2Proof/Machine/Framer.lean ====
section
/-! DEFINITION. The framer (30_encoding.md R75 to R77): one byte read, and the frame it completes, if it completes one;
and how a frame is placed so that the next byte read completes it. -/

namespace Sys2Proof.Machine

/-- Take one byte while `seq = IDLE` (30_encoding.md R75). The received bytes with `b` are one frame, and then the
framer is cleared and the frame is to be dispatched, or they are still short of one and are kept. An immediate opcode is
a frame at once, and a parameterized one after its fifth byte, whatever the parameter bytes are (R76, R77). Which byte
is which opcode is the block's own map (R78, 93_implementation_defined.md I1). -/
def takeByte (b : Byte) (s : State) : State × Option Instr :=
  match decodeWith s.params.opcodes.byte (s.frame ++ [b]) with
  | .ok (i, _) => (s.withFrame [], some i)
  | .error _ => (s.withFrame (s.frame ++ [b]), none)

/-- One byte read. A timeout changes nothing, and when nothing is left to read every read times out (30_encoding.md
R75, 70_reset_and_hazards.md R249; notes/assumptions/2.md). -/
def fetch (s : State) : State × Option Instr :=
  match s.cmd with
  | [] => (s, none)
  | .timeout :: rest => (s.withCmd rest, none)
  | .byte b :: rest => takeByte b (s.withCmd rest)

/-- The frame at the front of a byte list: one byte for an immediate opcode, five for a parameterized one
under the map `code` (30_encoding.md R77). -/
def frontFrame (code : Op → Byte) (bytes : List Byte) : List Byte :=
  match bytes with
  | [] => []
  | b :: rest => if parameterizedWith code b then b :: rest.take 4 else [b]

/-- The state whose next step dispatches the frame at the front of `bytes`: the block idle and not faulted, all but the
last byte of the frame received, and the last byte the next to be read (notes/assumptions/15.md). -/
def placeFrame (bytes : List Byte) (s : State) : State :=
  let front := frontFrame s.params.opcodes.byte bytes
  (((s.withFrame front.dropLast).withCmd (front.getLast?.toList.map LinkEvent.byte ++ s.cmd)).withSeq .idle).raiseFault
    .none

end Sys2Proof.Machine
end

