-- ==== Sys2Proof/Machine/Trigger.lean ====
section
/-! DEFINITION. The trigger_matcher: its predicate and the step in TRIG_WAIT (41_trigger_matcher.md). -/

namespace Sys2Proof.Machine

/-- `Match(m, v, s)` (41_trigger_matcher.md R130), the formula as the spec states it (90_conflicts.md C1). -/
def triggerMatch (m v s : Byte) : Bool :=
  decide (s &&& m &&& v ≠ 0) || decide (~~~s &&& m &&& ~~~v ≠ 0)

/-- One step in TRIG_WAIT (41_trigger_matcher.md R134): the stop is checked first, and a stop or a match leads to
CAP_FIRST. The sample is not kept (R135). -/
def trigWaitStep (s : State) : Result :=
  let (stop, s1) := stopSampled s
  if stop then .next (s1.withSeq .capFirst)
  else
    let (sample, s2) := portRead s1
    if triggerMatch s2.ts.mask s2.ts.value sample then .next (s2.withSeq .capFirst) else .next s2

end Sys2Proof.Machine
end

