-- ==== Sys2Proof/Machine/Step.lean ====
section
/-! DEFINITION. One step of the block (00_scope.md R11, 42_capture_state_machine.md R150). -/

namespace Sys2Proof.Machine

/-- One step in IDLE: one byte read, and the dispatch of the frame it completes (40_config_commands.md R116). -/
def idleStep (s : State) : Host.Outcome State Fault Refusal :=
  match fetch s with
  | (s', none) => .next s'
  | (s', some i) => exec i s'

/-- One step. A faulted block takes none (60_exceptions.md R224). Otherwise `seq` says which rule runs
(42_capture_state_machine.md R150). -/
def step (s : State) : Host.Outcome State Fault Refusal :=
  match s.fault with
  | .rateUndefined => .fault .rateUndefined
  | .counterLimit counter => .fault (.counterLimit counter)
  | .none =>
    match s.seq with
    | .idle => idleStep s
    | .trigWait => trigWaitStep s
    | .capFirst => capFirstStep s
    | .capLoop => capLoopStep s
    | .report => reportStep s

/-- The state with the instruction of an opcode-table word placed where the next step fetches
(notes/assumptions/15.md). -/
def State.withFetchWord (s : State) (nbits w : Nat) : State := placeFrame (tableBytes nbits w) s

end Sys2Proof.Machine
end

