-- ==== Sys2Proof/WellFormed.lean ====
section
/-! DEFINITION. Which terms of `Instr` stand for a frame: every one, but an `unknown` whose byte is a known opcode
(40_config_commands.md R115: UNKNOWN is any byte value not listed in 30_encoding.md R78). -/

namespace Sys2Proof

/-- The one check: the byte of an `unknown` frame is no known opcode under the map `code`. Every operand value of every other frame is
legal (30_encoding.md R80). -/
def Instr.wellFormedWith (code : Op → Byte) : Instr → Bool
  | .reset => true
  | .arm => true
  | .queryId => true
  | .queryMetadata => true
  | .xon => true
  | .xoff => true
  | .setDivider _ => true
  | .setCaptureSize _ _ => true
  | .setFlags _ => true
  | .setDelayCount _ => true
  | .setReadCount _ => true
  | .setTriggerMask0 _ => true
  | .setTriggerValue0 _ => true
  | .setTriggerConfig0 _ => true
  | .setTriggerMask1 _ => true
  | .setTriggerValue1 _ => true
  | .setTriggerConfig1 _ => true
  | .setTriggerMask2 _ => true
  | .setTriggerValue2 _ => true
  | .setTriggerConfig2 _ => true
  | .setTriggerMask3 _ => true
  | .setTriggerValue3 _ => true
  | .setTriggerConfig3 _ => true
  | .unknown b => (opOfWith code b).isNone

/-- Well-formedness under the SUMP values. -/
def Instr.wellFormed (i : Instr) : Bool := i.wellFormedWith opcodeOf

end Sys2Proof
end

