-- ==== Sys2Proof/Safety.lean ====
section
/-! DEFINITION. The terms claims use: the samples a run buffer stands for, the decimated output, and the invariant `BlockInv`
of the block, in named parts. -/

namespace Sys2Proof.Machine

/-- The samples of slots `0..j`, oldest first: `runs[0].value` repeated `runs[0].count` times, and so on
(43_run_length_encoder.md R185). -/
def samplesUpTo (m : Memory) : Nat → List Byte
  | 0 => List.replicate (m.read 0).count (m.read 0).value
  | j + 1 => samplesUpTo m j ++ List.replicate (m.read (j + 1)).count (m.read (j + 1)).value

/-- The sum of the counts of slots `0..j` (10_state.md R33). -/
def countUpTo (m : Memory) : Nat → Nat
  | 0 => (m.read 0).count
  | j + 1 => countUpTo m j + (m.read (j + 1)).count

/-- The samples of slots `0..j`, most recent first: the list `S` of 44_decimation_filter.md R204. -/
def newestFirst (m : Memory) (j : Nat) : List Byte := (samplesUpTo m j).reverse

/-- The output of a report at rate `r` over the samples `S`: `O[n] = S[(n+1)*r - 1]` for `n < |S| div r`
(44_decimation_filter.md R204). -/
def decimate (r : Nat) (samples : List Byte) : List Byte :=
  (List.range (samples.length / r)).map fun n => samples.getD ((n + 1) * r - 1) 0

/-- The number of runs of a sample list: one, and one more wherever a sample differs from the one before it
(43_run_length_encoder.md R180). -/
def runCount : List Byte → Nat
  | [] => 0
  | [_] => 1
  | a :: b :: rest => (if a = b then 0 else 1) + runCount (b :: rest)

/-- `n` steps of the machine, stopping at the first step that answers no next state. -/
def steps : Nat → State → Host.Outcome State Fault Refusal
  | 0, s => .next s
  | n + 1, s =>
    match step s with
    | .next t => steps n t
    | .fault r => .fault r
    | .refused r => .refused r

/-- The block takes the next byte read: it is in IDLE and not faulted (40_config_commands.md R116,
60_exceptions.md R224). -/
structure Ready (s : State) : Prop where
  idle : s.seq = .idle
  no_fault : s.fault = .none

/-- `n` does not pass `COUNTER_LIMIT`, or the limit is absent (60_exceptions.md R223). -/
def Within (p : Params) (n : Nat) : Prop := ∀ l ∈ p.counterLimit, n ≤ l

/-- The configuration registers hold values of their ranges (10_state.md R23, R26). -/
structure ConfigOk (c : CaptureConfig) : Prop where
  count_le : c.sampleCount ≤ Config.virtualCapacity
  delay_le : c.sampleDelay ≤ Config.maxSampleDelay
  rate_pos : c.rateValid = true → 1 ≤ c.sampleRate
  rate_le : c.rateValid = true → c.sampleRate ≤ Config.maxSampleRate

/-- The framer holds at most four bytes, and a frame in progress has a parameterized opcode of the block's map
(10_state.md R37). -/
structure FramerOk (m : OpcodeMap) (f : List Byte) : Prop where
  length_le : f.length ≤ 4
  opcode : ∀ b ∈ f.head?, parameterizedWith m.byte b = true

/-- The latches hold values of their ranges (10_state.md R31, 42_capture_state_machine.md R153, R154). -/
structure LatchesOk (l : TriggerState) : Prop where
  rate_pos : 1 ≤ l.capRate
  rate_le : l.capRate ≤ Config.maxSampleRate
  budget_le : l.capBudget ≤ Config.maxBudget

/-- The run-length invariants (43_run_length_encoder.md R185), the bound on `taken` (42_capture_state_machine.md
R167), and the count of the last slot's run (R160). -/
structure CaptureOk (budget : Nat) (c : Capture) : Prop where
  cursor_lt : c.cursor < Config.bufferSize
  count_pos : ∀ j, j ≤ c.cursor → 1 ≤ (c.runs.read j).count
  adjacent_ne : ∀ j, j < c.cursor → (c.runs.read j).value ≠ (c.runs.read (j + 1)).value
  last_value : (c.runs.read c.cursor).value = c.prev
  sum_eq : countUpTo c.runs c.cursor = c.taken
  taken_le : c.taken ≤ max 1 budget
  last_slot : c.cursor = Config.bufferSize - 1 → (c.runs.read c.cursor).count = 1

/-- The raw samples of the capture that the report has not walked yet. -/
def remaining (c : Capture) (r : Report) : Nat :=
  r.k + (match r.j with | 0 => 0 | j + 1 => countUpTo c.runs j)

/-- The decimation registers (10_state.md R36): `rep_j` is a run of the capture, `rep_k` at most its count, and `rep_c`
counts the samples walked since the last emitted byte, across runs. -/
structure ReportOk (l : TriggerState) (c : Capture) (r : Report) : Prop where
  j_le : r.j ≤ c.cursor
  k_le : r.k ≤ (c.runs.read r.j).count
  c_eq : r.c = (c.taken - remaining c r) % l.capRate

/-- The invariant of the block: what every step keeps. -/
structure BlockInv (s : State) : Prop where
  memory : s.cap.runs.wf = true
  config : ConfigOk s.cfg
  framer : FramerOk s.params.opcodes s.frame
  latches : s.seq ≠ .idle → LatchesOk s.ts
  no_frame : s.seq ≠ .idle → s.frame = []
  waiting : s.seq = .trigWait → waitsForTrigger s.ts = true
  capture : s.seq = .capLoop ∨ s.seq = .report → CaptureOk s.ts.capBudget s.cap
  report : s.seq = .report → ReportOk s.ts s.cap s.rep

end Sys2Proof.Machine
end

