-- ==== Sys2Proof/Certificates/Slice0/Obligations.lean ====
section
/-! DEFINITION. The statements for the provers. Each docstring names the rule it formalises; where a clause rests on the
spec's own decision (D<n> of 92_eei_decisions.md) or on an entry of notes/assumptions, it says so. A conclusion of the
form `exec i s = .next { s with … }` is the completion, the result and the whole frame of the instruction at once: every
part of State that is not named, every run slot included, is as before. -/

open Sys2Proof Sys2Proof.Machine

/-! ## Power-on -/

/-- 70_reset_and_hazards.md R240 (decision D21): what power-on fixes, for all parameters and every `CFG_RESET` draw. -/
def Obligations.PowerOnLeavesIdleAlignedUnfaulted : Prop :=
  ∀ (p : Params) (c : CfgReset),
    (State.powerOn p c).seq = .idle ∧ (State.powerOn p c).busy = false ∧ (State.powerOn p c).fault = .none ∧
    (State.powerOn p c).framerMode = .waitingOpcode ∧ (State.powerOn p c).haveBytes = 0 ∧
    (State.powerOn p c).cfg.rateValid = false ∧
    (State.powerOn p c).cfg.sampleCount = c.sampleCount ∧ (State.powerOn p c).cfg.sampleDelay = c.sampleDelay ∧
    (State.powerOn p c).cfg.triggerMask = c.triggerMask ∧ (State.powerOn p c).cfg.triggerValue = c.triggerValue ∧
    (State.powerOn p c).cfg.triggerEnabled = c.triggerEnabled ∧ (State.powerOn p c).cfg.flags = c.flags

/-- The invariant holds at power-on, for all parameters and every draw in range, so at `State.reset`. Which values
the spec's unspecified registers hold there is the model's choice (notes/assumptions/6.md, 7.md). -/
def Obligations.InvariantAtPowerOn : Prop :=
  (∀ (p : Params) (c : CfgReset), c.inRange = true → BlockInv (State.powerOn p c)) ∧ BlockInv State.reset

/-! ## The immediate commands -/

/-- 40_config_commands.md R90, R94, R95, R115: RESET, XON, XOFF and UNKNOWN change no state and write nothing. -/
def Obligations.ResetXonXoffUnknownChangeNothing : Prop :=
  ∀ (s : State) (b : Byte),
    exec .reset s = .next s ∧ exec .xon s = .next s ∧ exec .xoff s = .next s ∧ exec (.unknown b) s = .next s

/-- 40_config_commands.md section 1 (QUERY_ID) and section 1 (QUERY_METADATA): the dispatcher's replies go onto `out`
after everything written before, and no other state changes. The ASCII codes are the spec's general knowledge; that a
reply is written whole in the dispatching step is the model's reading (notes/assumptions/3.md). -/
def Obligations.QueriesOnlyAppendTheirReply : Prop :=
  ∀ s : State,
    exec .queryId s = .next { s with out := s.out ++ [0x31, 0x41, 0x4C, 0x53] } ∧
    exec .queryMetadata s = .next { s with out := s.out ++ s.params.metadataReply }

/-! ## The rate and count commands -/

/-- 40_config_commands.md R96 (decisions D3, D4, D5), with the quotient given by its two inequalities, and `d + 1` within
`COUNTER_LIMIT` (notes/assumptions/22.md; past it, `SettersPastLimitRaiseCounterLimit`). The model's choice in it: with a
zero quotient `sample_rate` keeps its old value, where R98 says it holds none (notes/assumptions/18.md). -/
def Obligations.SetDividerSetsRateOrUnsetsIt : Prop :=
  ∀ (s : State) (d : Word) (q : Nat), Within s.params (d.toNat + 1) →
    q * (d.toNat + 1) ≤ s.params.clockFrequency → s.params.clockFrequency < (q + 1) * (d.toNat + 1) →
    (q = 0 → exec (.setDivider d) s = .next { s with cfg := { s.cfg with rateValid := false } }) ∧
    (q ≠ 0 → exec (.setDivider d) s =
      .next { s with cfg := { s.cfg with sampleRate := min q 1000000, rateValid := true } })

/-- 40_config_commands.md section 2, divider arithmetic, at the clock frequency of the spec's default, which is general
knowledge: the ranges of the divider it names, with `d + 1` within `COUNTER_LIMIT` (notes/assumptions/22.md). -/
def Obligations.DividerRangesAtDefaultClock : Prop :=
  ∀ (s : State) (d : Word), s.params.clockFrequency = 100000000 → Within s.params (d.toNat + 1) →
    ∃ t, exec (.setDivider d) s = .next t ∧ t.fault = s.fault ∧
      (d.toNat ≤ 99 → t.cfg.rateValid = true ∧ t.cfg.sampleRate = 1000000) ∧
      (d.toNat = 100 → t.cfg.rateValid = true ∧ t.cfg.sampleRate = 990099) ∧
      (d.toNat = 99999999 → t.cfg.rateValid = true ∧ t.cfg.sampleRate = 1) ∧
      (100000000 ≤ d.toNat → t.cfg.rateValid = false)

/-- 40_config_commands.md R98 (decision D5): a zero quotient unsets the rate whatever it was, and an ARM then faults, with
`d + 1` within `COUNTER_LIMIT` (notes/assumptions/22.md). The model's choice in it: `sample_rate` keeps its old value, where
R98 says it holds none (notes/assumptions/18.md). -/
def Obligations.ZeroQuotientUnsetsRateAndArmFaults : Prop :=
  ∀ (s : State) (d : Word), s.params.clockFrequency < d.toNat + 1 → Within s.params (d.toNat + 1) →
    ∃ t, exec (.setDivider d) s = .next t ∧ t = { s with cfg := { s.cfg with rateValid := false } } ∧
      exec .arm t = .next { t with fault := .rateUndefined }

/-- 40_config_commands.md R99 (decisions D11, D28): the clamp of `sample_count` never acts for this command. Both products
are within `COUNTER_LIMIT` (notes/assumptions/22.md; past it, `SettersPastLimitRaiseCounterLimit`). -/
def Obligations.SetCaptureSizeStoresFourTimesBoth : Prop :=
  ∀ (s : State) (a b : Half), Within s.params (a.toNat * 4) → Within s.params (b.toNat * 4) →
    exec (.setCaptureSize a b) s =
      .next { s with cfg := { s.cfg with sampleCount := a.toNat * 4, sampleDelay := b.toNat * 4 } }

/-- 40_config_commands.md R100, R101: SET_FLAGS stores the word, SET_DELAY_COUNT four times its parameter, unclamped, the
product within `COUNTER_LIMIT` (notes/assumptions/22.md; past it, `SettersPastLimitRaiseCounterLimit`). -/
def Obligations.SetFlagsAndDelayStoreTheirParameter : Prop :=
  ∀ (s : State) (w : Word),
    exec (.setFlags w) s = .next { s with cfg := { s.cfg with flags := w } } ∧
    (Within s.params (w.toNat * 4) →
      exec (.setDelayCount w) s = .next { s with cfg := { s.cfg with sampleDelay := w.toNat * 4 } })

/-- 40_config_commands.md R102 (decisions D4, D28): the clamp acts exactly above 2^28, the product before the clamp within
`COUNTER_LIMIT` (notes/assumptions/22.md; past it, `SettersPastLimitRaiseCounterLimit`). -/
def Obligations.SetReadCountClampsToVirtualCapacity : Prop :=
  ∀ (s : State) (n : Word), Within s.params (n.toNat * 4) →
    (n.toNat ≤ 268435456 →
      exec (.setReadCount n) s = .next { s with cfg := { s.cfg with sampleCount := n.toNat * 4 } }) ∧
    (268435456 < n.toNat →
      exec (.setReadCount n) s = .next { s with cfg := { s.cfg with sampleCount := 1073741824 } })

/-- 00_scope.md section 4, a result above `COUNTER_LIMIT` faults, with decision D4 and 93_implementation_defined.md I4, which
count `d + 1` and `n * 4` among the counters. That this holds against 60_exceptions.md R223's list and the commands'
'Exceptions: none', that nothing else is written, and that the product for `sample_count` is tested first, are the model's
reading (notes/assumptions/22.md, 11.md). -/
def Obligations.SettersPastLimitRaiseCounterLimit : Prop :=
  ∀ (s : State) (l : Nat), s.params.counterLimit = some l →
    (∀ d : Word, l < d.toNat + 1 → exec (.setDivider d) s = .next { s with fault := .counterLimit .divisor }) ∧
    (∀ a b : Half, l < a.toNat * 4 →
      exec (.setCaptureSize a b) s = .next { s with fault := .counterLimit .countProduct }) ∧
    (∀ a b : Half, a.toNat * 4 ≤ l → l < b.toNat * 4 →
      exec (.setCaptureSize a b) s = .next { s with fault := .counterLimit .delayProduct }) ∧
    (∀ n : Word, l < n.toNat * 4 →
      exec (.setDelayCount n) s = .next { s with fault := .counterLimit .delayProduct } ∧
      exec (.setReadCount n) s = .next { s with fault := .counterLimit .countProduct })

/-! ## The trigger commands -/

/-- 40_config_commands.md R103, R104 (decision D7): the low eight bits are kept, bit by bit. -/
def Obligations.SetTriggerMaskAndValueKeepLowByte : Prop :=
  ∀ (s : State) (w : Word), ∃ b : Byte, (∀ i, i < 8 → b.getLsbD i = w.getLsbD i) ∧
    exec (.setTriggerMask0 w) s = .next { s with cfg := { s.cfg with triggerMask := b } } ∧
    exec (.setTriggerValue0 w) s = .next { s with cfg := { s.cfg with triggerValue := b } }

/-- 40_config_commands.md R105 (decisions D8, D9): with `t = P[31:24]`, bit 2 of `t` is bit 26 of `P` and bit 3 is bit
27. -/
def Obligations.SetTriggerConfigReadsBitsTwoAndThree : Prop :=
  ∀ (s : State) (p : Word),
    (p.getLsbD 26 = true →
      exec (.setTriggerConfig0 p) s = .next { s with cfg := { s.cfg with triggerEnabled := false } }) ∧
    (p.getLsbD 26 = false →
      exec (.setTriggerConfig0 p) s = .next { s with cfg := { s.cfg with triggerEnabled := p.getLsbD 27 } })

/-- 40_config_commands.md R106 to R114 (decision D10): stages 1 to 3 have no effect, or act as stage 0 when
`STAGE_ALIAS` is set; in both cases their opcodes head frames of five bytes. The last clause is about the SUMP values of
those opcodes, which are the spec's general knowledge (notes/assumptions/13.md), and not about another map. -/
def Obligations.OtherStagesSkipOrAliasStageZero : Prop :=
  ∀ (s : State) (w : Word),
    (s.params.stageAlias = false →
      exec (.setTriggerMask1 w) s = .next s ∧ exec (.setTriggerValue1 w) s = .next s ∧
      exec (.setTriggerConfig1 w) s = .next s ∧
      exec (.setTriggerMask2 w) s = .next s ∧ exec (.setTriggerValue2 w) s = .next s ∧
      exec (.setTriggerConfig2 w) s = .next s ∧
      exec (.setTriggerMask3 w) s = .next s ∧ exec (.setTriggerValue3 w) s = .next s ∧
      exec (.setTriggerConfig3 w) s = .next s) ∧
    (s.params.stageAlias = true → ∃ m v c : State,
      exec (.setTriggerMask0 w) s = .next m ∧ exec (.setTriggerValue0 w) s = .next v ∧
      exec (.setTriggerConfig0 w) s = .next c ∧
      exec (.setTriggerMask1 w) s = .next m ∧ exec (.setTriggerValue1 w) s = .next v ∧
      exec (.setTriggerConfig1 w) s = .next c ∧
      exec (.setTriggerMask2 w) s = .next m ∧ exec (.setTriggerValue2 w) s = .next v ∧
      exec (.setTriggerConfig2 w) s = .next c ∧
      exec (.setTriggerMask3 w) s = .next m ∧ exec (.setTriggerValue3 w) s = .next v ∧
      exec (.setTriggerConfig3 w) s = .next c) ∧
    (∀ b ∈ ([0xC4, 0xC5, 0xC6, 0xC8, 0xC9, 0xCA, 0xCC, 0xCD, 0xCE] : List Byte), parameterized b = true)

/-! ## ARM -/

/-- 42_capture_state_machine.md R152 (decision D6): the fault is recorded, no other state changes, nothing is
emitted. -/
def Obligations.ArmWithoutRateRaisesRateUndefined : Prop :=
  ∀ s : State, s.cfg.rateValid = false → exec .arm s = .next { s with fault := .rateUndefined }

/-- 42_capture_state_machine.md R151, R155, 41_trigger_matcher.md R133 (decision D4): the latches, the rate by its two
inequalities, and where the sequencer goes. The second inequality rules out a rate of zero, which 10_state.md
R26 does while `rate_valid` is 1. -/
def Obligations.ArmLatchesConfigurationAndStarts : Prop :=
  ∀ (s : State) (r : Nat), s.cfg.rateValid = true →
    r * s.cfg.sampleRate ≤ 1000000 → 1000000 < (r + 1) * s.cfg.sampleRate →
    Within s.params (s.cfg.sampleCount * r) →
    exec .arm s = .next { s with
      ts := { mask := s.cfg.triggerMask, value := s.cfg.triggerValue, enabled := s.cfg.triggerEnabled,
              capRate := r, capBudget := s.cfg.sampleCount * r },
      seq := if s.cfg.triggerEnabled = true ∧ s.cfg.triggerMask ≠ 0 then .trigWait else .capFirst }

/-- 60_exceptions.md R226, its third clause, and the arm step's part of section 2 there: with a valid rate, a budget
past `COUNTER_LIMIT` raises CounterLimit. That the step writes nothing else is the model's reading
(notes/assumptions/11.md). -/
def Obligations.ArmBudgetPastLimitRaisesCounterLimit : Prop :=
  ∀ (s : State) (l r : Nat), s.cfg.rateValid = true →
    r * s.cfg.sampleRate ≤ 1000000 → 1000000 < (r + 1) * s.cfg.sampleRate →
    s.params.counterLimit = some l → l < s.cfg.sampleCount * r →
    exec .arm s = .next { s with fault := .counterLimit .capBudget }

/-! ## The frame of every command -/

/-- 40_config_commands.md, the facts that hold for every command, and 10_state.md R22: what no command writes. Every run
slot reads as before; only ARM writes a latch or the sequencer state; ARM writes no configuration; only the two queries
write `out`. A command that changes the fault register changes nothing else, and is ARM, or with `COUNTER_LIMIT` set one of
the four setters whose value it bounds (notes/assumptions/22.md). -/
def Obligations.CommandsLeaveCaptureAndReportAlone : Prop :=
  ∀ (i : Instr) (s t : State), exec i s = .next t →
    (∀ k, t.cap.runs.read k = s.cap.runs.read k) ∧ t.cap = s.cap ∧ t.rep = s.rep ∧ t.frame = s.frame ∧
    t.cmd = s.cmd ∧ t.env = s.env ∧ t.params = s.params ∧
    (i ≠ .arm → t.ts = s.ts ∧ t.seq = s.seq) ∧
    (i ≠ .arm → s.params.counterLimit = none → t.fault = s.fault) ∧
    (t.fault ≠ s.fault → t = { s with fault := t.fault } ∧
      (i = .arm ∨ (∃ d, i = .setDivider d) ∨ (∃ a b, i = .setCaptureSize a b) ∨ (∃ n, i = .setDelayCount n) ∨
        ∃ n, i = .setReadCount n)) ∧
    (i = .arm → t.cfg = s.cfg) ∧
    (i ≠ .queryId → i ≠ .queryMetadata → t.out = s.out)

/-! ## Encoding -/

/-- 30_encoding.md section 4 and 95_test_vectors.md V1 to V5: frames written out from the spec's encoding decode to the
command they stand for, one or more for every format and family. The opcode values are the spec's general knowledge
(notes/assumptions/13.md). -/
def Obligations.WrittenOutFramesDecode : Prop :=
  decode [0x00] = .ok (.reset, []) ∧
  decode [0x01] = .ok (.arm, []) ∧
  decode [0x80, 0x63, 0x00, 0x00, 0x00] = .ok (.setDivider 0x00000063, []) ∧
  decode [0x80, 0x00, 0x01, 0x02, 0x03] = .ok (.setDivider 0x03020100, []) ∧
  decode [0x81, 0x01, 0x00, 0x02, 0x00] = .ok (.setCaptureSize 1 2, []) ∧
  decode [0x82, 0x78, 0x56, 0x34, 0x12] = .ok (.setFlags 0x12345678, []) ∧
  decode [0x84, 0xE8, 0x03, 0x00, 0x00] = .ok (.setReadCount 1000, []) ∧
  decode [0xC0, 0x01, 0xFF, 0x00, 0x00] = .ok (.setTriggerMask0 0x0000FF01, []) ∧
  decode [0xC2, 0x00, 0x00, 0x00, 0x08] = .ok (.setTriggerConfig0 0x08000000, []) ∧
  decode [0xC9, 0xFF, 0x00, 0x00, 0x00] = .ok (.setTriggerValue2 0x000000FF, []) ∧
  decode [0x85, 0x01, 0x02] = .ok (.unknown 0x85, [0x01, 0x02]) ∧
  decode [0xC3] = .ok (.unknown 0xC3, [])

/-- 30_encoding.md sections 1 to 4: decoding the encoding of any well-formed frame gives it back, with every operand
value, whatever follows it. -/
def Obligations.DecodeOfEncodeIsTheFrame : Prop :=
  ∀ (i : Instr) (rest : List Byte), i.wellFormed = true → decode (encode i ++ rest) = .ok (i, rest)

/-- 30_encoding.md sections 1 to 4: what the decoder reads is well formed, and its encoding is the bytes read, under
every opcode map (93_implementation_defined.md I1), the SUMP map of `decode` among them. -/
def Obligations.EncodeOfDecodeIsTheBytes : Prop :=
  ∀ (code : Op → Byte) (bytes rest : List Byte) (i : Instr), decodeWith code bytes = .ok (i, rest) →
    i.wellFormedWith code = true ∧ encodeWith code i ++ rest = bytes

/-- 93_implementation_defined.md I1: the round trip holds for any opcode map that gives two opcodes two bytes, for the
frames of known opcodes and for a byte outside the map. -/
def Obligations.RoundTripForAnyOpcodeMap : Prop :=
  ∀ code : Op → Byte, (∀ o o', code o = code o' → o = o') →
    ∀ (i : Instr) (rest : List Byte), (∀ b, i = .unknown b → ∀ o, code o ≠ b) →
      decodeWith code (encodeWith code i ++ rest) = .ok (i, rest)

/-- 30_encoding.md R77, R80 (decision D23): the first byte alone tells the length, no byte value is illegal, and a list
is rejected only when it ends inside a five-byte frame. The values of the class are those of section 4. -/
def Obligations.FirstByteTellsFrameLength : Prop :=
  ∀ (b : Byte) (rest : List Byte),
    (parameterized b = true ↔ b ∈ ([0x80, 0x81, 0x82, 0x83, 0x84, 0xC0, 0xC1, 0xC2, 0xC4, 0xC5, 0xC6, 0xC8, 0xC9, 0xCA,
      0xCC, 0xCD, 0xCE] : List Byte)) ∧
    (parameterized b = false → ∃ i, decode (b :: rest) = .ok (i, rest)) ∧
    (parameterized b = true → 4 ≤ rest.length → ∃ i, decode (b :: rest) = .ok (i, rest.drop 4)) ∧
    (parameterized b = true → rest.length < 4 →
      decode (b :: rest) = .error (.truncated b (rest.length + 1)))

/-! ## The framer -/

/-- 30_encoding.md section 3: when the bytes received and the byte read are one frame under the block's opcode map, the
step is the dispatch of that frame, with the framer cleared and the byte taken. -/
def Obligations.StepDispatchesTheCompletedFrame : Prop :=
  ∀ (s : State) (b : Byte) (rest : List LinkEvent) (i : Instr), Ready s → s.cmd = .byte b :: rest →
    decodeWith s.params.opcodes.byte (s.frame ++ [b]) = .ok (i, []) → step s = exec i { s with frame := [], cmd := rest }

/-- 30_encoding.md R76: a byte after the opcode of an unfinished parameterized frame is kept as a parameter byte
whatever its value, as is the opcode byte itself. -/
def Obligations.UnfinishedFrameKeepsEveryByte : Prop :=
  ∀ (s : State) (b : Byte) (rest : List LinkEvent), Ready s → s.cmd = .byte b :: rest →
    ((s.frame = [] ∧ parameterizedWith s.params.opcodes.byte b = true) ∨
      (∃ o ps, s.frame = o :: ps ∧ parameterizedWith s.params.opcodes.byte o = true ∧ ps.length < 3)) →
    step s = .next { s with frame := s.frame ++ [b], cmd := rest }

/-- 70_reset_and_hazards.md R249: a timeout changes nothing but that the read is over, and with nothing to read the
block waits (60_exceptions.md, the command wait). -/
def Obligations.TimeoutLeavesTheFramerWhereItWas : Prop :=
  ∀ (s : State) (rest : List LinkEvent), Ready s →
    (s.cmd = .timeout :: rest → step s = .next { s with cmd := rest }) ∧ (s.cmd = [] → step s = .next s)

/-- 30_encoding.md R77, 40_config_commands.md R115: a byte that is no known opcode of the block's map is a whole frame
and changes nothing, bit 7 set or not. -/
def Obligations.UnknownByteIsAOneByteFrame : Prop :=
  ∀ (s : State) (b : Byte) (rest : List LinkEvent), Ready s → s.frame = [] → s.cmd = .byte b :: rest →
    (∀ o, s.params.opcodes.byte o ≠ b) → step s = .next { s with cmd := rest }

/-- 30_encoding.md section 3 (decision D20 aside): the bytes of a well-formed frame sent to an aligned framer are
taken one a step, and the last of those steps is the dispatch of the frame, under every opcode map that gives two opcodes
two bytes (93_implementation_defined.md I1). -/
def Obligations.SentFrameIsDispatchedByItsLastByte : Prop :=
  ∀ (s : State) (i : Instr) (rest : List LinkEvent), Ready s → s.frame = [] →
    s.params.opcodes.Distinct → i.wellFormedWith s.params.opcodes.byte = true →
    s.cmd = (encodeWith s.params.opcodes.byte i).map .byte ++ rest →
    steps (encodeWith s.params.opcodes.byte i).length s = exec i { s with cmd := rest }

/-- 70_reset_and_hazards.md section 2, framer alignment: five RESET bytes leave the framer waiting for an opcode, from
any point inside a frame, unless the frame they complete is a setter whose value passes `COUNTER_LIMIT` and so ends the run
(notes/assumptions/22.md), which no setter does at a limit of 17179869180 or more. The opcode map need not give two opcodes
two bytes: where RESET shares its byte, that RESET is the one read, the first in the order of R78, is the model's choice
(notes/assumptions/13.md). -/
def Obligations.FiveResetBytesRealignTheFramer : Prop :=
  ∀ (s : State) (rest : List LinkEvent), Ready s → FramerOk s.params.opcodes s.frame →
    s.cmd = List.replicate 5 (.byte s.params.opcodes.reset) ++ rest →
    ∃ n t, n ≤ 5 ∧ steps n s = .next t ∧ t.framerMode = .waitingOpcode ∧ t.seq = .idle ∧ t.cap = s.cap ∧
      (t.fault = .none → n = 5 ∧ t.cmd = rest) ∧
      (t.fault ≠ .none → n + s.frame.length = 5 ∧ s.frame ≠ [] ∧ ∃ c, t.fault = .counterLimit c) ∧
      (Within s.params 17179869180 → t.fault = .none) ∧
      (s.frame = [] → t = { s with cmd := rest })

/-! ## The trigger -/

/-- 41_trigger_matcher.md section 1, the equivalent form: at least one masked probe is at its configured level. -/
def Obligations.MatchIsAnyMaskedProbeAtItsLevel : Prop :=
  ∀ m v x : Byte,
    triggerMatch m v x = true ↔ ∃ i, i < 8 ∧ m.getLsbD i = true ∧ x.getLsbD i = v.getLsbD i

/-- 41_trigger_matcher.md section 1, corner cases: a zero mask never matches, a mask that is not zero can be matched,
and bits outside the mask never change the result. -/
def Obligations.MatchCornerCases : Prop :=
  ∀ m v x y w : Byte,
    triggerMatch 0 v x = false ∧ (m ≠ 0 → triggerMatch m v v = true) ∧
    (x &&& m = y &&& m → v &&& m = w &&& m → triggerMatch m v x = triggerMatch m w y)

/-- 41_trigger_matcher.md R134 (decisions D12, D13, D29), R130 and R135: the stop is checked first, the predicate is
the formula, a stop or a match leads to CAP_FIRST, and the sample is not kept. -/
def Obligations.TriggerWaitStep : Prop :=
  ∀ (s : State) (b : Bool) (x : Byte) (bs : List Bool) (xs : List Byte), s.seq = .trigWait → s.fault = .none →
    s.env.stops = b :: bs → s.env.polls = x :: xs →
    (b = true → step s = .next { s with seq := .capFirst, env := { s.env with stops := bs } }) ∧
    (b = false → (x &&& s.ts.mask &&& s.ts.value ≠ 0 ∨ ~~~x &&& s.ts.mask &&& ~~~s.ts.value ≠ 0) →
      step s = .next { s with seq := .capFirst, env := { s.env with stops := bs, polls := xs } }) ∧
    (b = false → ¬ (x &&& s.ts.mask &&& s.ts.value ≠ 0 ∨ ~~~x &&& s.ts.mask &&& ~~~s.ts.value ≠ 0) →
      step s = .next { s with env := { s.env with stops := bs, polls := xs } })

/-- 41_trigger_matcher.md R136 (decision D30): while no poll matches and no stop is seen, the block stays in TRIG_WAIT,
emits nothing and takes no byte, for any number of steps. -/
def Obligations.TriggerWaitHasNoTimeout : Prop :=
  ∀ (s : State) (xs ys : List Byte) (bs : List Bool), s.seq = .trigWait → s.fault = .none →
    (∀ x ∈ xs, triggerMatch s.ts.mask s.ts.value x = false) →
    s.env.polls = xs ++ ys → s.env.stops = List.replicate xs.length false ++ bs →
    steps xs.length s = .next { s with env := { s.env with polls := ys, stops := bs } }

/-! ## The capture -/

/-- 42_capture_state_machine.md R156, 43_run_length_encoder.md R181 (decisions D13, D16, D17): one poll, run 0 of count
one, no other slot written, and `stop_req` not sampled. That the other slots keep their contents is the model's choice
(notes/assumptions/9.md). The count of one is within `COUNTER_LIMIT` (notes/assumptions/12.md; past it,
`CounterPastLimitRaisesInsteadOfWriting`). -/
def Obligations.FirstSampleIsRunZero : Prop :=
  ∀ (s : State) (x : Byte) (xs : List Byte), s.seq = .capFirst → s.fault = .none → s.cap.runs.wf = true →
    Within s.params 1 → s.env.polls = x :: xs →
    ∃ m : Memory, step s = .next { s with
        seq := .capLoop, cap := { runs := m, cursor := 0, prev := x, taken := 1 }, env := { s.env with polls := xs } } ∧
      m.read 0 = ⟨x, 1⟩ ∧ ∀ i, i ≠ 0 → m.read i = s.cap.runs.read i

/-- 42_capture_state_machine.md R157, its stopping case, R159, R163, 44_decimation_filter.md R201 (decisions D12, D15,
D18): any of the three conditions, at the boundary and before any poll, sets the report up and enters REPORT. -/
def Obligations.AnyStopConditionStartsTheReport : Prop :=
  ∀ (s : State) (b : Bool) (bs : List Bool), s.seq = .capLoop → s.fault = .none → s.cap.cursor < 3500 →
    s.env.stops = b :: bs → (b = true ∨ s.ts.capBudget ≤ s.cap.taken ∨ s.cap.cursor = 3499) →
    step s = .next { s with
      seq := .report, rep := { j := s.cap.cursor, k := (s.cap.runs.read s.cap.cursor).count, c := 0 },
      env := { s.env with stops := bs } }

/-- 43_run_length_encoder.md R182 and 42_capture_state_machine.md R158: a sample equal to `prev` counts in the current
run, another opens the next run with a count of one, and no other slot changes. -/
def Obligations.PollCountsOrOpensARun : Prop :=
  ∀ (s : State) (x : Byte) (xs : List Byte) (bs : List Bool), s.seq = .capLoop → s.fault = .none →
    s.cap.runs.wf = true → s.cap.cursor < 3499 → s.cap.taken < s.ts.capBudget →
    s.env.stops = false :: bs → s.env.polls = x :: xs →
    Within s.params (s.cap.taken + 1) →
    (x = s.cap.prev → Within s.params ((s.cap.runs.read s.cap.cursor).count + 1) →
      ∃ m : Memory, step s = .next { s with
          cap := { runs := m, cursor := s.cap.cursor, prev := x, taken := s.cap.taken + 1 },
          env := { s.env with stops := bs, polls := xs } } ∧
        m.read s.cap.cursor =
          ⟨(s.cap.runs.read s.cap.cursor).value, (s.cap.runs.read s.cap.cursor).count + 1⟩ ∧
        ∀ i, i ≠ s.cap.cursor → m.read i = s.cap.runs.read i) ∧
    (x ≠ s.cap.prev →
      ∃ m : Memory, step s = .next { s with
          cap := { runs := m, cursor := s.cap.cursor + 1, prev := x, taken := s.cap.taken + 1 },
          env := { s.env with stops := bs, polls := xs } } ∧
        m.read (s.cap.cursor + 1) = ⟨x, 1⟩ ∧
        ∀ i, i ≠ s.cap.cursor + 1 → m.read i = s.cap.runs.read i)

/-- 60_exceptions.md section 2, CounterLimit, its `rle_update` and report parts: a count that would pass the limit
raises the fault, with the counter's name, instead of being written. Which of the two counters of `rle_update` is named
when both pass, that nothing else is written, and the last clause, the first sample's count of one at a limit of zero, are
the model's reading (notes/assumptions/11.md, 12.md). -/
def Obligations.CounterPastLimitRaisesInsteadOfWriting : Prop :=
  ∀ (s : State) (l : Nat), s.fault = .none → s.params.counterLimit = some l →
    (∀ (x : Byte) (xs : List Byte) (bs : List Bool), s.seq = .capLoop → s.cap.cursor < 3499 →
      s.cap.taken < s.ts.capBudget → s.env.stops = false :: bs → s.env.polls = x :: xs →
      x = s.cap.prev → l < (s.cap.runs.read s.cap.cursor).count + 1 →
      step s = .next { s with
        fault := .counterLimit .runCount, env := { s.env with stops := bs, polls := xs } }) ∧
    (∀ (x : Byte) (xs : List Byte) (bs : List Bool), s.seq = .capLoop → s.cap.cursor < 3499 →
      s.cap.taken < s.ts.capBudget → s.env.stops = false :: bs → s.env.polls = x :: xs →
      x = s.cap.prev → (s.cap.runs.read s.cap.cursor).count + 1 ≤ l → l < s.cap.taken + 1 →
      step s = .next { s with
        fault := .counterLimit .taken, env := { s.env with stops := bs, polls := xs } }) ∧
    (∀ (x : Byte) (xs : List Byte) (bs : List Bool), s.seq = .capLoop → s.cap.runs.wf = true → s.cap.cursor < 3499 →
      s.cap.taken < s.ts.capBudget → s.env.stops = false :: bs → s.env.polls = x :: xs →
      x ≠ s.cap.prev → 1 ≤ l → l < s.cap.taken + 1 →
      step s = .next { s with
        fault := .counterLimit .taken, env := { s.env with stops := bs, polls := xs } }) ∧
    (∀ (x : Byte) (xs : List Byte) (bs : List Bool), s.seq = .capLoop → s.cap.runs.wf = true → s.cap.cursor < 3499 →
      s.cap.taken < s.ts.capBudget → s.env.stops = false :: bs → s.env.polls = x :: xs →
      x ≠ s.cap.prev → l = 0 →
      step s = .next { s with
        fault := .counterLimit .runCount, env := { s.env with stops := bs, polls := xs } }) ∧
    (s.seq = .report → 0 < s.rep.k → l < s.rep.c + 1 →
      step s = .next { s with fault := .counterLimit .repC }) ∧
    (∀ (x : Byte) (xs : List Byte), s.seq = .capFirst → s.env.polls = x :: xs → l = 0 →
      step s = .next { s with fault := .counterLimit .runCount, env := { s.env with polls := xs } })

/-- 43_run_length_encoder.md section 4, the invariants, as a whole capture: the runs stand for exactly the polls made,
in order, the first sample among them, and there is one run for each stretch of equal samples. -/
def Obligations.CaptureRecordsExactlyThePolls : Prop :=
  ∀ (s : State) (x : Byte) (xs ys : List Byte) (bs : List Bool), s.seq = .capFirst → s.fault = .none →
    s.cap.runs.wf = true → s.params.counterLimit = none → xs.length + 1 ≤ max 1 s.ts.capBudget →
    runCount (x :: xs).dropLast ≤ 3499 →
    s.env.polls = (x :: xs) ++ ys → s.env.stops = List.replicate xs.length false ++ bs →
    ∃ c : Capture, steps (xs.length + 1) s = .next { s with
        seq := .capLoop, cap := c, env := { s.env with polls := ys, stops := bs } } ∧
      samplesUpTo c.runs c.cursor = x :: xs ∧ c.cursor + 1 = runCount (x :: xs) ∧ c.taken = xs.length + 1

/-- 43_run_length_encoder.md section 4, the first property the source states: samples of one value are one run. -/
def Obligations.EqualSamplesAreOneRun : Prop :=
  ∀ (s : State) (x : Byte) (n : Nat) (ys : List Byte) (bs : List Bool), s.seq = .capFirst → s.fault = .none →
    s.cap.runs.wf = true → s.params.counterLimit = none → n + 1 ≤ max 1 s.ts.capBudget →
    s.env.polls = List.replicate (n + 1) x ++ ys → s.env.stops = List.replicate n false ++ bs →
    ∃ t, steps (n + 1) s = .next t ∧ t.seq = .capLoop ∧ t.cap.cursor = 0 ∧ t.cap.runs.read 0 = ⟨x, n + 1⟩ ∧
      t.cap.taken = n + 1

/-- 42_capture_state_machine.md section 4, the capacity stop (decision D15): when the polls keep changing, run 3499
is opened with a count of one and the next boundary starts the report, with no further poll and no error. -/
def Obligations.CapacityStopsTheCaptureSilently : Prop :=
  ∀ (s : State) (xs ys : List Byte) (bs : List Bool), s.seq = .capFirst → s.fault = .none →
    s.cap.runs.wf = true → s.params.counterLimit = none → 3500 ≤ s.ts.capBudget →
    xs.length = 3500 → runCount xs = 3500 →
    s.env.polls = xs ++ ys → s.env.stops = List.replicate 3500 false ++ bs →
    ∃ t, steps 3501 s = .next t ∧ t.seq = .report ∧ t.fault = .none ∧ t.cap.cursor = 3499 ∧ t.cap.taken = 3500 ∧
      (t.cap.runs.read 3499).count = 1 ∧ t.env.polls = ys ∧ t.out = s.out

/-- 70_reset_and_hazards.md R246, a stop that stays set (decisions D12, D13): from the trigger wait it still leads to
the unconditional first sample and then to the report of that one sample. -/
def Obligations.StopInTheWaitStillTakesOneSample : Prop :=
  ∀ (s : State) (x : Byte) (xs : List Byte) (bs : List Bool), s.seq = .trigWait → s.fault = .none →
    s.cap.runs.wf = true → Within s.params 1 → s.env.stops = true :: true :: bs → s.env.polls = x :: xs →
    ∃ t, steps 3 s = .next t ∧ t.seq = .report ∧ t.cap.taken = 1 ∧ t.cap.cursor = 0 ∧ t.cap.runs.read 0 = ⟨x, 1⟩ ∧
      t.env.stops = bs ∧ t.env.polls = xs

/-! ## The report -/

/-- 44_decimation_filter.md R202, R203 (decision D18): the walk, the emitted byte, the next older run with the carry,
and the end. That the report registers keep their values at the end, where R203 discards `rep_c`, is the model's choice
(notes/assumptions/18.md). -/
def Obligations.ReportStep : Prop :=
  ∀ s : State, s.seq = .report → s.fault = .none → s.rep.j < 3500 →
    (0 < s.rep.k → Within s.params (s.rep.c + 1) → s.rep.c + 1 ≠ s.ts.capRate →
      step s = .next { s with rep := { j := s.rep.j, k := s.rep.k - 1, c := s.rep.c + 1 } }) ∧
    (∀ as, 0 < s.rep.k → Within s.params (s.rep.c + 1) → s.rep.c + 1 = s.ts.capRate → s.env.accepts = true :: as →
      step s = .next { s with
        rep := { j := s.rep.j, k := s.rep.k - 1, c := 0 }, env := { s.env with accepts := as },
        out := s.out ++ [(s.cap.runs.read s.rep.j).value] }) ∧
    (s.rep.k = 0 → 0 < s.rep.j →
      step s = .next { s with
        rep := { j := s.rep.j - 1, k := (s.cap.runs.read (s.rep.j - 1)).count, c := s.rep.c } }) ∧
    (s.rep.k = 0 → s.rep.j = 0 → step s = .next { s with seq := .idle })

/-- 44_decimation_filter.md R208 (decision D19): while the environment does not take the byte, the report stays where
it is and nothing is lost. That no report register moves meanwhile is the model's reading (notes/assumptions/16.md). -/
def Obligations.UntakenByteStallsTheReport : Prop :=
  ∀ (s : State) (n : Nat) (as : List Bool), s.seq = .report → s.fault = .none → s.rep.j < 3500 →
    Within s.params (s.rep.c + 1) → 0 < s.rep.k → s.rep.c + 1 = s.ts.capRate →
    s.env.accepts = List.replicate n false ++ as →
    steps n s = .next { s with env := { s.env with accepts := as } }

/-- 44_decimation_filter.md section 2, the closed form: from its set-up, a report whose bytes the host takes emits every
`cap_rate`-th of the samples, most recent first, then ends in IDLE. It changes neither the run buffer nor the
configuration. -/
def Obligations.ReportEmitsEveryRateThSample : Prop :=
  ∀ (s : State) (as : List Bool), s.seq = .report → s.fault = .none → s.cap.cursor < 3500 →
    s.rep = { j := s.cap.cursor, k := (s.cap.runs.read s.cap.cursor).count, c := 0 } → 1 ≤ s.ts.capRate →
    Within s.params s.ts.capRate →
    s.env.accepts =
      List.replicate (countUpTo s.cap.runs s.cap.cursor / s.ts.capRate) true ++ as →
    ∃ (n : Nat) (r : Report), steps n s = .next { s with
      seq := .idle, rep := r, env := { s.env with accepts := as },
      out := s.out ++ decimate s.ts.capRate (newestFirst s.cap.runs s.cap.cursor) }

/-- 44_decimation_filter.md R207, its first sentence, R209 (decision D34): a report step writes neither the run buffer,
`cursor`, nor any configuration field; it does not sample `stop_req`, and no stop has an effect on it. -/
def Obligations.ReportWritesNoBufferNoConfiguration : Prop :=
  ∀ s t : State, s.seq = .report → step s = .next t →
    (∀ i, t.cap.runs.read i = s.cap.runs.read i) ∧ t.cap = s.cap ∧ t.cfg = s.cfg ∧ t.ts = s.ts ∧
    t.env.stops = s.env.stops ∧ t.env.polls = s.env.polls ∧ t.frame = s.frame ∧ t.cmd = s.cmd ∧
    ∀ bs, step { s with env := { s.env with stops := bs } } = .next { t with env := { t.env with stops := bs } }

/-- 40_config_commands.md section 1 (ARM) with 42_capture_state_machine.md section 4, the budget stop, and
44_decimation_filter.md section 2, the output length: an ARM byte of the block's map, without a trigger wait, a stop or a
full buffer, ends in IDLE again with every `cap_rate`-th poll on `out`, most recent first, which are `sample_count` bytes
when that is not zero. -/
def Obligations.ArmCapturesAndReportsTheRequestedSamples : Prop :=
  ∀ (s : State) (xs ys : List Byte) (rest : List LinkEvent) (bs as : List Bool) (r : Nat),
    Ready s → s.frame = [] → s.cmd = .byte s.params.opcodes.arm :: rest →
    s.params.opcodes.Distinct → s.cap.runs.wf = true → s.params.counterLimit = none →
    s.cfg.rateValid = true → 1 ≤ r → r * s.cfg.sampleRate ≤ 1000000 → 1000000 < (r + 1) * s.cfg.sampleRate →
    (s.cfg.triggerEnabled = false ∨ s.cfg.triggerMask = 0) →
    xs.length = max 1 (s.cfg.sampleCount * r) → runCount xs ≤ 3499 →
    s.env.polls = xs ++ ys → s.env.stops = List.replicate xs.length false ++ bs →
    s.env.accepts = List.replicate (xs.length / r) true ++ as →
    ∃ n t, steps n s = .next t ∧ t.seq = .idle ∧ t.fault = .none ∧ t.cmd = rest ∧ t.cfg = s.cfg ∧
      t.cap.taken = xs.length ∧ samplesUpTo t.cap.runs t.cap.cursor = xs ∧
      t.out = s.out ++ decimate r xs.reverse ∧
      (s.cfg.sampleCount ≠ 0 → t.out.length = s.out.length + s.cfg.sampleCount) ∧
      t.env.polls = ys ∧ t.env.accepts = as

/-! ## The whole machine -/

/-- 42_capture_state_machine.md R150: the only transitions of the sequencer. A step that raises a fault makes none
(60_exceptions.md R224); in CAP_FIRST it is the one of a `COUNTER_LIMIT` of zero (notes/assumptions/12.md). -/
def Obligations.SequencerTransitions : Prop :=
  ∀ s t : State, step s = .next t →
    (t.fault ≠ .none → t.seq = s.seq) ∧
    (s.seq = .idle → t.seq = .idle ∨ t.seq = .trigWait ∨ t.seq = .capFirst) ∧
    (s.seq = .trigWait → t.seq = .trigWait ∨ t.seq = .capFirst) ∧
    (s.seq = .capFirst → t.seq = .capLoop ∨ (t.seq = .capFirst ∧ t.fault ≠ .none ∧ s.params.counterLimit = some 0)) ∧
    (s.seq = .capLoop → t.seq = .capLoop ∨ t.seq = .report) ∧
    (s.seq = .report → t.seq = .report ∨ t.seq = .idle)

/-- 40_config_commands.md R116 (decision D20): while the sequencer is not in IDLE, no byte is taken from `cmd`, no
configuration register changes, and what the host sends has no effect. -/
def Obligations.BusyBlockTakesNoByteAndKeepsConfiguration : Prop :=
  ∀ s t : State, s.busy = true → step s = .next t →
    t.cmd = s.cmd ∧ t.frame = s.frame ∧ t.cfg = s.cfg ∧ ∀ c, step { s with cmd := c } = .next { t with cmd := c }

/-- 20_memory.md section 1, buffer access, and 43_run_length_encoder.md section 2, R181 and R182: a run slot changes only in
CAP_FIRST, where it is slot 0, and in CAP_LOOP, where it is the slot `cursor` names after the step. That a CAP_FIRST step
leaves the stale slots as they were is the model's choice (notes/assumptions/9.md). -/
def Obligations.RunSlotsChangeOnlyInACapture : Prop :=
  ∀ (s t : State) (i : Nat), step s = .next t → t.cap.runs.read i ≠ s.cap.runs.read i →
    (s.seq = .capFirst ∧ i = 0) ∨ (s.seq = .capLoop ∧ i = t.cap.cursor)

/-- 20_memory.md section 1, buffer access, what it says of reads, as far as a step can show it. The first clause: a step
leaves no run half-written, for each run it changes has a count of at least one. The second: what a step does depends on
the buffer only through the current run in CAP_LOOP, which 43_run_length_encoder.md R182 and 44_decimation_filter.md R201
read there, and through the runs from `rep_j` down in REPORT. In the other states any buffer `m` gives the same step. That
CAP_LOOP reads at all is the pseudocode of those two rules, against the prose of 20_memory.md R51
(notes/assumptions/23.md). -/
def Obligations.StepsReadOnlyTheCurrentRunOrTheReportedRuns : Prop :=
  ∀ (s t : State) (m : Memory), s.cap.runs.wf = true → m.wf = true → step s = .next t →
    (∀ k, t.cap.runs.read k ≠ s.cap.runs.read k → 1 ≤ (t.cap.runs.read k).count) ∧
    ((s.seq = .capLoop → m.read s.cap.cursor = s.cap.runs.read s.cap.cursor) →
      (s.seq = .report → ∀ j, j ≤ s.rep.j → m.read j = s.cap.runs.read j) →
      ∃ m' : Memory,
        step { s with cap := { s.cap with runs := m } } = .next { t with cap := { t.cap with runs := m' } } ∧
        (s.seq ≠ .capFirst → s.seq ≠ .capLoop → m' = m) ∧ (∀ k, k ≠ t.cap.cursor → m'.read k = m.read k) ∧
        (s.seq = .capFirst ∨ s.seq = .capLoop → t.fault = .none →
          m'.read t.cap.cursor = t.cap.runs.read t.cap.cursor))

/-- 20_memory.md R59 (decision D12): `stop_req` is sampled in TRIG_WAIT and CAP_LOOP, once a step, and at no other
time. -/
def Obligations.StopIsSampledAtBoundariesOnly : Prop :=
  ∀ s t : State, step s = .next t →
    (s.seq ≠ .trigWait → s.seq ≠ .capLoop → t.env.stops = s.env.stops) ∧
    (s.seq = .trigWait ∨ s.seq = .capLoop → t.env.stops = s.env.stops.drop 1)

/-- 20_memory.md section 2, output order: a step appends to `out` and takes nothing back; outside IDLE it appends at
most one byte, in REPORT alone (00_scope.md R11). The parameters never change (notes/assumptions/4.md). -/
def Obligations.OutputOnlyGrowsAndParametersStay : Prop :=
  ∀ s t : State, step s = .next t →
    t.params = s.params ∧ ∃ bs, t.out = s.out ++ bs ∧
      (s.seq ≠ .idle → bs.length ≤ 1) ∧ (s.seq ≠ .idle → s.seq ≠ .report → bs = [])

/-- 10_state.md R25, R30: no step reads `sample_delay` or `flags`. Two blocks that differ in them alone take steps to
blocks that differ in them alone. -/
def Obligations.FlagsAndDelayHaveNoEffect : Prop :=
  ∀ (s t : State) (f : Word) (d : Nat), step s = .next t →
    ∃ f' d', step { s with cfg := { s.cfg with flags := f, sampleDelay := d } } =
      .next { t with cfg := { t.cfg with flags := f', sampleDelay := d' } }

/-- 20_memory.md, side effects of a poll, and 60_exceptions.md, the environment's liberties: a step that draws answers past
the listed ones (notes/assumptions/1.md) is the step that some listed answers give, so what is stated of listed answers
holds of every step. -/
def Obligations.UnlistedAnswersActAsListedOnes : Prop :=
  ∀ s t : State, step s = .next t → ∃ (x : Byte) (stop taken : Bool) (e : Env),
    step { s with env := { s.env with
      polls := s.env.polls ++ [x], stops := s.env.stops ++ [stop], accepts := s.env.accepts ++ [taken] } } =
    .next { t with env := e }

/-- 60_exceptions.md R224 (decision D6): a faulted block takes no further step, whatever is sent; the stop names the
recorded reason. -/
def Obligations.FaultedBlockTakesNoStep : Prop :=
  ∀ s : State,
    (s.fault = .rateUndefined → step s = .fault .rateUndefined) ∧
    (∀ c, s.fault = .counterLimit c → step s = .fault (.counterLimit c))

/-- From every state that meets the invariant, not faulted, there is a next state: the model's own stop `noSuchSlot`
(notes/assumptions/10.md) is never reached, and no reachable state is without a rule. -/
def Obligations.UnfaultedBlockAlwaysHasANextState : Prop :=
  ∀ s : State, BlockInv s → s.fault = .none → ∃ t, step s = .next t

/-- 43_run_length_encoder.md section 4 with 10_state.md sections 2 to 7: every step keeps the invariant of the block. -/
def Obligations.EveryStepKeepsTheInvariant : Prop :=
  ∀ s t : State, BlockInv s → step s = .next t → BlockInv t

/-- How a program comes to run (notes/assumptions/15.md): placing an opcode-table word makes the very next step the
dispatch of the frame that the decoder reads from it under the block's opcode map; under the default map that is the frame
`decodeTableWord` reads. -/
def Obligations.PlacedWordIsDispatchedNext : Prop :=
  ∀ (s : State) (nbits w : Nat) (i : Instr),
    ((∃ rest, decodeWith s.params.opcodes.byte (tableBytes nbits w) = .ok (i, rest)) ∨
      (s.params.opcodes = .sump ∧ decodeTableWord nbits w = some i)) →
    step (s.withFetchWord nbits w) = exec i { s with frame := [], seq := .idle, fault := .none }
end

