-- ==== Sys2Proof/Laws/Decode.lean ====
section
/-! SUPPORT. The laws of the opcode map, the parameter bytes and the decoder. -/

namespace Sys2Proof

theorem mem_allOps (o : Op) : o ∈ allOps := by cases o <;> decide

/-- No two known opcodes share a byte value. -/
theorem opcodeOf_injective : ∀ o o' : Op, opcodeOf o = opcodeOf o' → o = o' := by
  intro o o' h
  cases o <;> cases o' <;> first | rfl | exact absurd h (by decide)

/-- Every known opcode is found by its byte, under any map that gives two opcodes two bytes. -/
theorem opOfWith_code {code : Op → Byte} (hinj : ∀ o o', code o = code o' → o = o') (o : Op) :
    opOfWith code (code o) = some o := by
  unfold opOfWith
  cases h : allOps.find? (fun o' => code o' == code o) with
  | none =>
    have := (List.find?_eq_none.1 h) o (mem_allOps o)
    simp at this
  | some o' =>
    have := List.find?_some h
    rw [hinj o' o (by simpa using this)]

/-- The opcode found by a byte has that byte. -/
theorem opOfWith_eq_some {code : Op → Byte} {b : Byte} {o : Op} (h : opOfWith code b = some o) : code o = b := by
  simpa using List.find?_some h

theorem opOfWith_sump (b : Byte) : opOfWith opcodeOf b = opOf b := rfl

theorem opOf_opcodeOf (o : Op) : opOf (opcodeOf o) = some o := opOfWith_code opcodeOf_injective o

theorem opOf_eq_some {b : Byte} {o : Op} : opOf b = some o ↔ opcodeOf o = b :=
  ⟨opOfWith_eq_some, fun h => h ▸ opOf_opcodeOf o⟩

theorem assemble32_wordBytes (p : Word) :
    assemble32 (p.extractLsb' 0 8) (p.extractLsb' 8 8) (p.extractLsb' 16 8) (p.extractLsb' 24 8) = p := by
  apply BitVec.eq_of_getLsbD_eq
  intro i hi
  simp only [assemble32, BitVec.getLsbD_or, BitVec.getLsbD_setWidth, BitVec.getLsbD_shiftLeft,
    BitVec.getLsbD_extractLsb']
  rcases (by omega : i < 8 ∨ (8 ≤ i ∧ i < 16) ∨ (16 ≤ i ∧ i < 24) ∨ (24 ≤ i ∧ i < 32)) with h | h | h | h
  · simp [hi, h, show i < 16 by omega, show i < 24 by omega]
  · simp [hi, show ¬ i < 8 by omega, show i < 16 by omega, show i < 24 by omega, show i - 8 < 8 by omega,
      show 8 + (i - 8) = i by omega, show i - 8 < 32 by omega]
  · simp [hi, show ¬ i < 8 by omega, show ¬ i < 16 by omega, show i < 24 by omega, show ¬ i - 8 < 8 by omega,
      show i - 16 < 8 by omega, show 16 + (i - 16) = i by omega, show i - 16 < 32 by omega]
  · simp [hi, show ¬ i < 8 by omega, show ¬ i < 16 by omega, show ¬ i < 24 by omega, show ¬ i - 8 < 8 by omega,
      show ¬ i - 16 < 8 by omega, show i - 24 < 8 by omega, show 24 + (i - 24) = i by omega,
      show i - 24 < 32 by omega]

theorem assemble16_halfBytes (p : Half) : assemble16 (p.extractLsb' 0 8) (p.extractLsb' 8 8) = p := by
  apply BitVec.eq_of_getLsbD_eq
  intro i hi
  simp only [assemble16, BitVec.getLsbD_or, BitVec.getLsbD_setWidth, BitVec.getLsbD_shiftLeft,
    BitVec.getLsbD_extractLsb']
  rcases (by omega : i < 8 ∨ 8 ≤ i) with h | h
  · simp [hi, h]
  · simp [hi, show ¬ i < 8 by omega, show i - 8 < 8 by omega, show 8 + (i - 8) = i by omega,
      show i - 8 < 16 by omega]

variable {code : Op → Byte}

/-- The decoder on an immediate frame. -/
theorem decodeWith_immediate {b : Byte} (h : parameterizedWith code b = false) (rest : List Byte) :
    ∃ i, decodeWith code (b :: rest) = .ok (i, rest) := by
  unfold parameterizedWith at h
  simp only [decodeWith]
  cases ho : opOfWith code b with
  | none => exact ⟨_, rfl⟩
  | some o =>
    simp only [ho, decide_eq_false_iff_not, not_not] at h
    simp only [h]
    exact ⟨_, rfl⟩

/-- The decoder on a parameterized frame that is short of its fifth byte. -/
theorem decodeWith_truncated {b : Byte} (h : parameterizedWith code b = true) {rest : List Byte}
    (hl : rest.length < 4) : decodeWith code (b :: rest) = .error (.truncated b (rest.length + 1)) := by
  unfold parameterizedWith at h
  simp only [decodeWith]
  cases ho : opOfWith code b with
  | none => simp [ho] at h
  | some o =>
    simp only [ho, decide_eq_true_eq] at h
    match rest, hl with
    | [], _ => cases hf : formatOf o <;> simp_all
    | [_], _ => cases hf : formatOf o <;> simp_all
    | [_, _], _ => cases hf : formatOf o <;> simp_all
    | [_, _, _], _ => cases hf : formatOf o <;> simp_all

/-- The decoder on a whole parameterized frame. -/
theorem decodeWith_parameterized {b : Byte} {o : Op} (ho : opOfWith code b = some o) (hf : formatOf o ≠ .imm)
    (p1 p2 p3 p4 : Byte) (rest : List Byte) :
    decodeWith code (b :: p1 :: p2 :: p3 :: p4 :: rest) = .ok (frameOf o p1 p2 p3 p4, rest) := by
  simp only [decodeWith, ho]
  cases h : formatOf o <;> simp_all

/-- The class of a known opcode's byte is that of its format, under any map that gives two opcodes two bytes. -/
theorem parameterizedWith_code (hinj : ∀ o o', code o = code o' → o = o') (o : Op) :
    parameterizedWith code (code o) = decide (formatOf o ≠ .imm) := by
  simp only [parameterizedWith, opOfWith_code hinj o]

/-- The opcodes of the default map are the SUMP values, and no two share one. -/
theorem sump_distinct : OpcodeMap.sump.Distinct := opcodeOf_injective

end Sys2Proof
end

