-- ==== Sys2Proof/Laws/State.lean ====
section
/-! SUPPORT. One lemma a field and an update of State, each true by rfl, so that no later proof unfolds a record
update. -/

namespace Sys2Proof.Machine

variable (s : State)

@[simp] theorem State.withCfg_params (c : CaptureConfig) : (s.withCfg c).params = s.params := rfl
@[simp] theorem State.withCfg_cfg (c : CaptureConfig) : (s.withCfg c).cfg = c := rfl
@[simp] theorem State.withCfg_ts (c : CaptureConfig) : (s.withCfg c).ts = s.ts := rfl
@[simp] theorem State.withCfg_cap (c : CaptureConfig) : (s.withCfg c).cap = s.cap := rfl
@[simp] theorem State.withCfg_rep (c : CaptureConfig) : (s.withCfg c).rep = s.rep := rfl
@[simp] theorem State.withCfg_frame (c : CaptureConfig) : (s.withCfg c).frame = s.frame := rfl
@[simp] theorem State.withCfg_seq (c : CaptureConfig) : (s.withCfg c).seq = s.seq := rfl
@[simp] theorem State.withCfg_fault (c : CaptureConfig) : (s.withCfg c).fault = s.fault := rfl
@[simp] theorem State.withCfg_cmd (c : CaptureConfig) : (s.withCfg c).cmd = s.cmd := rfl
@[simp] theorem State.withCfg_env (c : CaptureConfig) : (s.withCfg c).env = s.env := rfl
@[simp] theorem State.withCfg_out (c : CaptureConfig) : (s.withCfg c).out = s.out := rfl

@[simp] theorem State.withTs_params (l : TriggerState) : (s.withTs l).params = s.params := rfl
@[simp] theorem State.withTs_cfg (l : TriggerState) : (s.withTs l).cfg = s.cfg := rfl
@[simp] theorem State.withTs_ts (l : TriggerState) : (s.withTs l).ts = l := rfl
@[simp] theorem State.withTs_cap (l : TriggerState) : (s.withTs l).cap = s.cap := rfl
@[simp] theorem State.withTs_rep (l : TriggerState) : (s.withTs l).rep = s.rep := rfl
@[simp] theorem State.withTs_frame (l : TriggerState) : (s.withTs l).frame = s.frame := rfl
@[simp] theorem State.withTs_seq (l : TriggerState) : (s.withTs l).seq = s.seq := rfl
@[simp] theorem State.withTs_fault (l : TriggerState) : (s.withTs l).fault = s.fault := rfl
@[simp] theorem State.withTs_cmd (l : TriggerState) : (s.withTs l).cmd = s.cmd := rfl
@[simp] theorem State.withTs_env (l : TriggerState) : (s.withTs l).env = s.env := rfl
@[simp] theorem State.withTs_out (l : TriggerState) : (s.withTs l).out = s.out := rfl

@[simp] theorem State.withCap_params (c : Capture) : (s.withCap c).params = s.params := rfl
@[simp] theorem State.withCap_cfg (c : Capture) : (s.withCap c).cfg = s.cfg := rfl
@[simp] theorem State.withCap_ts (c : Capture) : (s.withCap c).ts = s.ts := rfl
@[simp] theorem State.withCap_cap (c : Capture) : (s.withCap c).cap = c := rfl
@[simp] theorem State.withCap_rep (c : Capture) : (s.withCap c).rep = s.rep := rfl
@[simp] theorem State.withCap_frame (c : Capture) : (s.withCap c).frame = s.frame := rfl
@[simp] theorem State.withCap_seq (c : Capture) : (s.withCap c).seq = s.seq := rfl
@[simp] theorem State.withCap_fault (c : Capture) : (s.withCap c).fault = s.fault := rfl
@[simp] theorem State.withCap_cmd (c : Capture) : (s.withCap c).cmd = s.cmd := rfl
@[simp] theorem State.withCap_env (c : Capture) : (s.withCap c).env = s.env := rfl
@[simp] theorem State.withCap_out (c : Capture) : (s.withCap c).out = s.out := rfl

@[simp] theorem State.withRep_params (r : Report) : (s.withRep r).params = s.params := rfl
@[simp] theorem State.withRep_cfg (r : Report) : (s.withRep r).cfg = s.cfg := rfl
@[simp] theorem State.withRep_ts (r : Report) : (s.withRep r).ts = s.ts := rfl
@[simp] theorem State.withRep_cap (r : Report) : (s.withRep r).cap = s.cap := rfl
@[simp] theorem State.withRep_rep (r : Report) : (s.withRep r).rep = r := rfl
@[simp] theorem State.withRep_frame (r : Report) : (s.withRep r).frame = s.frame := rfl
@[simp] theorem State.withRep_seq (r : Report) : (s.withRep r).seq = s.seq := rfl
@[simp] theorem State.withRep_fault (r : Report) : (s.withRep r).fault = s.fault := rfl
@[simp] theorem State.withRep_cmd (r : Report) : (s.withRep r).cmd = s.cmd := rfl
@[simp] theorem State.withRep_env (r : Report) : (s.withRep r).env = s.env := rfl
@[simp] theorem State.withRep_out (r : Report) : (s.withRep r).out = s.out := rfl

@[simp] theorem State.withFrame_params (f : List Byte) : (s.withFrame f).params = s.params := rfl
@[simp] theorem State.withFrame_cfg (f : List Byte) : (s.withFrame f).cfg = s.cfg := rfl
@[simp] theorem State.withFrame_ts (f : List Byte) : (s.withFrame f).ts = s.ts := rfl
@[simp] theorem State.withFrame_cap (f : List Byte) : (s.withFrame f).cap = s.cap := rfl
@[simp] theorem State.withFrame_rep (f : List Byte) : (s.withFrame f).rep = s.rep := rfl
@[simp] theorem State.withFrame_frame (f : List Byte) : (s.withFrame f).frame = f := rfl
@[simp] theorem State.withFrame_seq (f : List Byte) : (s.withFrame f).seq = s.seq := rfl
@[simp] theorem State.withFrame_fault (f : List Byte) : (s.withFrame f).fault = s.fault := rfl
@[simp] theorem State.withFrame_cmd (f : List Byte) : (s.withFrame f).cmd = s.cmd := rfl
@[simp] theorem State.withFrame_env (f : List Byte) : (s.withFrame f).env = s.env := rfl
@[simp] theorem State.withFrame_out (f : List Byte) : (s.withFrame f).out = s.out := rfl

@[simp] theorem State.withSeq_params (q : Seq) : (s.withSeq q).params = s.params := rfl
@[simp] theorem State.withSeq_cfg (q : Seq) : (s.withSeq q).cfg = s.cfg := rfl
@[simp] theorem State.withSeq_ts (q : Seq) : (s.withSeq q).ts = s.ts := rfl
@[simp] theorem State.withSeq_cap (q : Seq) : (s.withSeq q).cap = s.cap := rfl
@[simp] theorem State.withSeq_rep (q : Seq) : (s.withSeq q).rep = s.rep := rfl
@[simp] theorem State.withSeq_frame (q : Seq) : (s.withSeq q).frame = s.frame := rfl
@[simp] theorem State.withSeq_seq (q : Seq) : (s.withSeq q).seq = q := rfl
@[simp] theorem State.withSeq_fault (q : Seq) : (s.withSeq q).fault = s.fault := rfl
@[simp] theorem State.withSeq_cmd (q : Seq) : (s.withSeq q).cmd = s.cmd := rfl
@[simp] theorem State.withSeq_env (q : Seq) : (s.withSeq q).env = s.env := rfl
@[simp] theorem State.withSeq_out (q : Seq) : (s.withSeq q).out = s.out := rfl

@[simp] theorem State.withCmd_params (c : List LinkEvent) : (s.withCmd c).params = s.params := rfl
@[simp] theorem State.withCmd_cfg (c : List LinkEvent) : (s.withCmd c).cfg = s.cfg := rfl
@[simp] theorem State.withCmd_ts (c : List LinkEvent) : (s.withCmd c).ts = s.ts := rfl
@[simp] theorem State.withCmd_cap (c : List LinkEvent) : (s.withCmd c).cap = s.cap := rfl
@[simp] theorem State.withCmd_rep (c : List LinkEvent) : (s.withCmd c).rep = s.rep := rfl
@[simp] theorem State.withCmd_frame (c : List LinkEvent) : (s.withCmd c).frame = s.frame := rfl
@[simp] theorem State.withCmd_seq (c : List LinkEvent) : (s.withCmd c).seq = s.seq := rfl
@[simp] theorem State.withCmd_fault (c : List LinkEvent) : (s.withCmd c).fault = s.fault := rfl
@[simp] theorem State.withCmd_cmd (c : List LinkEvent) : (s.withCmd c).cmd = c := rfl
@[simp] theorem State.withCmd_env (c : List LinkEvent) : (s.withCmd c).env = s.env := rfl
@[simp] theorem State.withCmd_out (c : List LinkEvent) : (s.withCmd c).out = s.out := rfl

@[simp] theorem State.withEnv_params (e : Env) : (s.withEnv e).params = s.params := rfl
@[simp] theorem State.withEnv_cfg (e : Env) : (s.withEnv e).cfg = s.cfg := rfl
@[simp] theorem State.withEnv_ts (e : Env) : (s.withEnv e).ts = s.ts := rfl
@[simp] theorem State.withEnv_cap (e : Env) : (s.withEnv e).cap = s.cap := rfl
@[simp] theorem State.withEnv_rep (e : Env) : (s.withEnv e).rep = s.rep := rfl
@[simp] theorem State.withEnv_frame (e : Env) : (s.withEnv e).frame = s.frame := rfl
@[simp] theorem State.withEnv_seq (e : Env) : (s.withEnv e).seq = s.seq := rfl
@[simp] theorem State.withEnv_fault (e : Env) : (s.withEnv e).fault = s.fault := rfl
@[simp] theorem State.withEnv_cmd (e : Env) : (s.withEnv e).cmd = s.cmd := rfl
@[simp] theorem State.withEnv_env (e : Env) : (s.withEnv e).env = e := rfl
@[simp] theorem State.withEnv_out (e : Env) : (s.withEnv e).out = s.out := rfl

@[simp] theorem State.writeOut_params (bs : List Byte) : (s.writeOut bs).params = s.params := rfl
@[simp] theorem State.writeOut_cfg (bs : List Byte) : (s.writeOut bs).cfg = s.cfg := rfl
@[simp] theorem State.writeOut_ts (bs : List Byte) : (s.writeOut bs).ts = s.ts := rfl
@[simp] theorem State.writeOut_cap (bs : List Byte) : (s.writeOut bs).cap = s.cap := rfl
@[simp] theorem State.writeOut_rep (bs : List Byte) : (s.writeOut bs).rep = s.rep := rfl
@[simp] theorem State.writeOut_frame (bs : List Byte) : (s.writeOut bs).frame = s.frame := rfl
@[simp] theorem State.writeOut_seq (bs : List Byte) : (s.writeOut bs).seq = s.seq := rfl
@[simp] theorem State.writeOut_fault (bs : List Byte) : (s.writeOut bs).fault = s.fault := rfl
@[simp] theorem State.writeOut_cmd (bs : List Byte) : (s.writeOut bs).cmd = s.cmd := rfl
@[simp] theorem State.writeOut_env (bs : List Byte) : (s.writeOut bs).env = s.env := rfl
@[simp] theorem State.writeOut_out (bs : List Byte) : (s.writeOut bs).out = s.out ++ bs := rfl

@[simp] theorem State.raiseFault_params (r : FaultReg) : (s.raiseFault r).params = s.params := rfl
@[simp] theorem State.raiseFault_cfg (r : FaultReg) : (s.raiseFault r).cfg = s.cfg := rfl
@[simp] theorem State.raiseFault_ts (r : FaultReg) : (s.raiseFault r).ts = s.ts := rfl
@[simp] theorem State.raiseFault_cap (r : FaultReg) : (s.raiseFault r).cap = s.cap := rfl
@[simp] theorem State.raiseFault_rep (r : FaultReg) : (s.raiseFault r).rep = s.rep := rfl
@[simp] theorem State.raiseFault_frame (r : FaultReg) : (s.raiseFault r).frame = s.frame := rfl
@[simp] theorem State.raiseFault_seq (r : FaultReg) : (s.raiseFault r).seq = s.seq := rfl
@[simp] theorem State.raiseFault_fault (r : FaultReg) : (s.raiseFault r).fault = r := rfl
@[simp] theorem State.raiseFault_cmd (r : FaultReg) : (s.raiseFault r).cmd = s.cmd := rfl
@[simp] theorem State.raiseFault_env (r : FaultReg) : (s.raiseFault r).env = s.env := rfl
@[simp] theorem State.raiseFault_out (r : FaultReg) : (s.raiseFault r).out = s.out := rfl

@[simp] theorem State.withCfg_self : s.withCfg s.cfg = s := rfl
@[simp] theorem State.withEnv_self : s.withEnv s.env = s := rfl
@[simp] theorem State.withFrame_self : s.withFrame s.frame = s := rfl
@[simp] theorem State.writeOut_nil : s.writeOut [] = s := by simp [State.writeOut]
@[simp] theorem State.withEnv_withEnv (e e' : Env) : (s.withEnv e).withEnv e' = s.withEnv e' := rfl
@[simp] theorem State.withRep_withRep (r r' : Report) : (s.withRep r).withRep r' = s.withRep r' := rfl
@[simp] theorem State.withCap_withCap (c c' : Capture) : (s.withCap c).withCap c' = s.withCap c' := rfl
theorem State.writeOut_writeOut (a b : List Byte) : (s.writeOut a).writeOut b = s.writeOut (a ++ b) := by
  simp [State.writeOut, List.append_assoc]

end Sys2Proof.Machine
end

