-- ==== Sys2Proof/Laws/Env.lean ====
section
/-! SUPPORT. What the environment's primitives can do, each said once: an answer, and a state that differs in `env`
alone. -/

namespace Sys2Proof.Machine

theorem portRead_listed {s : State} {b : Byte} {rest : List Byte} (h : s.env.polls = b :: rest) :
    portRead s = (b, s.withEnv { s.env with polls := rest }) := by
  simp [portRead, h]

theorem portRead_free {s : State} (h : s.env.polls = []) :
    portRead s = (Config.freePoll s.env.drawn, s.withEnv { s.env with drawn := s.env.drawn + 1 }) := by
  simp [portRead, h]

/-- A poll uses up one listed answer of the port, or draws one free value; it changes nothing else. -/
theorem portRead_state (s : State) :
    ∃ d, (portRead s).2 = s.withEnv { s.env with polls := s.env.polls.drop 1, drawn := d } := by
  unfold portRead
  split
  · rename_i h; exact ⟨s.env.drawn, by simp [h]⟩
  · rename_i h; exact ⟨s.env.drawn + 1, by simp [h]⟩

theorem stopSampled_listed {s : State} {b : Bool} {rest : List Bool} (h : s.env.stops = b :: rest) :
    stopSampled s = (b, s.withEnv { s.env with stops := rest }) := by
  simp [stopSampled, h]

theorem stopSampled_free {s : State} (h : s.env.stops = []) :
    stopSampled s = (Config.freeStop s.env.drawn, s.withEnv { s.env with drawn := s.env.drawn + 1 }) := by
  simp [stopSampled, h]

/-- Sampling the stop uses up one listed level, or draws one free value; it changes nothing else. -/
theorem stopSampled_state (s : State) :
    ∃ d, (stopSampled s).2 = s.withEnv { s.env with stops := s.env.stops.drop 1, drawn := d } := by
  unfold stopSampled
  split
  · rename_i h; exact ⟨s.env.drawn, by simp [h]⟩
  · rename_i h; exact ⟨s.env.drawn + 1, by simp [h]⟩

theorem hostTakes_listed {s : State} {b : Bool} {rest : List Bool} (h : s.env.accepts = b :: rest) :
    hostTakes s = (b, s.withEnv { s.env with accepts := rest }) := by
  simp [hostTakes, h]

theorem hostTakes_free {s : State} (h : s.env.accepts = []) :
    hostTakes s = (Config.freeAccept s.env.drawn, s.withEnv { s.env with drawn := s.env.drawn + 1 }) := by
  simp [hostTakes, h]

/-- The answer to an offered byte uses up one listed answer, or draws one free value; it changes nothing else. -/
theorem hostTakes_state (s : State) :
    ∃ d, (hostTakes s).2 = s.withEnv { s.env with accepts := s.env.accepts.drop 1, drawn := d } := by
  unfold hostTakes
  split
  · rename_i h; exact ⟨s.env.drawn, by simp [h]⟩
  · rename_i h; exact ⟨s.env.drawn + 1, by simp [h]⟩

/-- `Emit` either puts the byte on `out`, or is not taken; either way one answer of the host is used up and nothing else
changes. -/
theorem emit_cases (b : Byte) (s : State) :
    ∃ d, emit b s = (true, (s.withEnv { s.env with accepts := s.env.accepts.drop 1, drawn := d }).writeOut [b]) ∨
      emit b s = (false, s.withEnv { s.env with accepts := s.env.accepts.drop 1, drawn := d }) := by
  obtain ⟨d, hd⟩ := hostTakes_state s
  refine ⟨d, ?_⟩
  unfold emit
  cases h : (hostTakes s).1
  · right; simp [h, hd]
  · left; simp [h, hd]

end Sys2Proof.Machine
end

