-- ==== Sys2Proof/Laws/Memory.lean ====
section
/-! SUPPORT. The laws of the run buffer: a read after a write, and that every operation keeps the canonical form. -/

namespace Sys2Proof.Machine

theorem Memory.wfFrom_mono {lo lo' : Nat} (h : lo' ≤ lo) :
    ∀ {m : Memory}, Memory.wfFrom lo m = true → Memory.wfFrom lo' m = true
  | [], _ => rfl
  | (k, r) :: m, hm => by
    simp only [Memory.wfFrom, Bool.and_eq_true, decide_eq_true_eq] at hm ⊢
    exact ⟨⟨⟨by omega, hm.1.1.2⟩, hm.1.2⟩, hm.2⟩

/-- A slot below the first listed one reads as an unwritten slot. -/
theorem Memory.read_below {i : Nat} : ∀ {lo : Nat} {m : Memory}, Memory.wfFrom lo m = true → i < lo →
    m.read i = unwrittenRun
  | _, [], _, _ => rfl
  | lo, (k, r) :: m, hm, hi => by
    simp only [Memory.wfFrom, Bool.and_eq_true, decide_eq_true_eq] at hm
    have hk : k ≠ i := by omega
    simp only [Memory.read, hk, if_false]
    exact Memory.read_below hm.2 (by omega)

theorem Memory.wfFrom_write {i : Nat} (r : Run) (hi : i < Config.bufferSize) :
    ∀ {lo : Nat} {m : Memory}, Memory.wfFrom lo m = true → lo ≤ i → Memory.wfFrom lo (m.write i r) = true
  | lo, [], _, hlo => by
    by_cases hr : r = unwrittenRun
    · simp [Memory.write, hr, Memory.wfFrom]
    · simp [Memory.write, hr, Memory.wfFrom, hlo, hi]
  | lo, (k, x) :: m, hm, hlo => by
    have hm' := hm
    simp only [Memory.wfFrom, Bool.and_eq_true, decide_eq_true_eq] at hm
    obtain ⟨⟨⟨hk, hkb⟩, hx⟩, hmt⟩ := hm
    rcases Nat.lt_trichotomy i k with hik | hik | hik
    · by_cases hr : r = unwrittenRun
      · simpa [Memory.write, hik, hr] using hm'
      · have h1 : i + 1 ≤ k := hik
        simp [Memory.write, hik, hr, Memory.wfFrom, hlo, hi, h1, hkb, hx, hmt]
    · subst hik
      by_cases hr : r = unwrittenRun
      · simpa [Memory.write, hr] using Memory.wfFrom_mono (by omega) hmt
      · simp [Memory.write, hr, Memory.wfFrom, hk, hi, hmt]
    · have h1 : ¬ i < k := by omega
      have h2 : i ≠ k := by omega
      simp [Memory.write, h1, h2, Memory.wfFrom, hk, hkb, hx, Memory.wfFrom_write r hi hmt (by omega)]

/-- A write to an existing slot keeps the canonical form. -/
theorem Memory.wf_write {m : Memory} {i : Nat} (r : Run) (h : m.wf = true) (hi : i < Config.bufferSize) :
    (m.write i r).wf = true :=
  Memory.wfFrom_write r hi h (Nat.zero_le i)

theorem Memory.read_write_from {i : Nat} (r : Run) :
    ∀ {lo : Nat} {m : Memory}, Memory.wfFrom lo m = true → (m.write i r).read i = r
  | _, [], _ => by
    by_cases hr : r = unwrittenRun
    · simp [Memory.write, hr, Memory.read]
    · simp [Memory.write, hr, Memory.read]
  | lo, (k, x) :: m, hm => by
    have hm' := hm
    simp only [Memory.wfFrom, Bool.and_eq_true, decide_eq_true_eq] at hm
    rcases Nat.lt_trichotomy i k with hik | hik | hik
    · by_cases hr : r = unwrittenRun
      · have hki : k ≠ i := by omega
        simp only [Memory.write, hik, if_true, hr, Memory.read, hki, if_false]
        exact Memory.read_below hm.2 (by omega)
      · simp [Memory.write, hik, hr, Memory.read]
    · subst hik
      by_cases hr : r = unwrittenRun
      · simp only [Memory.write, lt_irrefl, if_false, if_true, hr]
        exact Memory.read_below hm.2 (by omega)
      · simp [Memory.write, hr, Memory.read]
    · have h1 : ¬ i < k := by omega
      have h2 : i ≠ k := by omega
      have h3 : k ≠ i := by omega
      simp only [Memory.write, h1, if_false, h2, Memory.read, h3]
      exact Memory.read_write_from r hm.2

/-- A read after a write to the same slot gives the run written. -/
theorem Memory.read_write_self {m : Memory} (i : Nat) (r : Run) (h : m.wf = true) : (m.write i r).read i = r :=
  Memory.read_write_from r h

/-- A write leaves every other slot alone. -/
theorem Memory.read_write_ne {i j : Nat} (r : Run) (hij : j ≠ i) : ∀ m : Memory, (m.write i r).read j = m.read j
  | [] => by
    by_cases hr : r = unwrittenRun
    · simp [Memory.write, hr]
    · simp [Memory.write, hr, Memory.read, hij.symm]
  | (k, x) :: m => by
    have ih := Memory.read_write_ne r hij m
    rcases Nat.lt_trichotomy i k with hik | hik | hik
    · by_cases hr : r = unwrittenRun <;> simp [Memory.write, hik, hr, Memory.read, hij.symm]
    · subst hik
      by_cases hr : r = unwrittenRun <;> simp [Memory.write, hr, Memory.read, hij.symm]
    · have h1 : ¬ i < k := by omega
      have h2 : i ≠ k := by omega
      simp only [Memory.write, h1, if_false, h2, Memory.read, ih]

/-- `BufRead` answers a run exactly for a slot that exists. -/
theorem bufRead_eq_some {m : Memory} {i : Nat} {r : Run} :
    bufRead m i = some r ↔ i < Config.bufferSize ∧ m.read i = r := by
  unfold bufRead
  split <;> simp_all

theorem bufRead_of_lt {m : Memory} {i : Nat} (h : i < Config.bufferSize) : bufRead m i = some (m.read i) := by
  simp [bufRead, h]

/-- `BufWrite` answers a buffer exactly for a slot that exists. -/
theorem bufWrite_eq_some {m m' : Memory} {i : Nat} {r : Run} :
    bufWrite m i r = some m' ↔ i < Config.bufferSize ∧ m.write i r = m' := by
  unfold bufWrite
  split <;> simp_all

theorem bufWrite_of_lt {m : Memory} {i : Nat} (r : Run) (h : i < Config.bufferSize) :
    bufWrite m i r = some (m.write i r) := by
  simp [bufWrite, h]

end Sys2Proof.Machine
end

