-- ==== Sys2Proof/Laws/PerInstr.lean ====
section
/-! SUPPORT. Statements made for every instruction, as syntax: the length of its frame, and that the byte which heads the
frame tells that length, under every opcode map. -/

namespace Sys2Proof.Laws.EncodeLength

/-- Under any map that gives two opcodes two bytes, the frame of a well-formed instruction has one byte or five, and
five exactly when the class of its first byte is PARAMETERIZED (30_encoding.md R70, R77). -/
def Statement (i : Instr) : Prop :=
  ∀ m : OpcodeMap, m.Distinct → i.wellFormedWith m.byte = true →
    ∃ b ps, encodeWith m.byte i = b :: ps ∧ ps.length = if parameterizedWith m.byte b then 4 else 0

theorem reset : Statement .reset := fun _ h _ => ⟨_, _, rfl, by rw [parameterizedWith_code h]; rfl⟩
theorem arm : Statement .arm := fun _ h _ => ⟨_, _, rfl, by rw [parameterizedWith_code h]; rfl⟩
theorem queryId : Statement .queryId := fun _ h _ => ⟨_, _, rfl, by rw [parameterizedWith_code h]; rfl⟩
theorem queryMetadata : Statement .queryMetadata := fun _ h _ => ⟨_, _, rfl, by rw [parameterizedWith_code h]; rfl⟩
theorem xon : Statement .xon := fun _ h _ => ⟨_, _, rfl, by rw [parameterizedWith_code h]; rfl⟩
theorem xoff : Statement .xoff := fun _ h _ => ⟨_, _, rfl, by rw [parameterizedWith_code h]; rfl⟩
theorem setDivider (w : Word) : Statement (.setDivider w) := fun _ h _ =>
  ⟨_, _, rfl, by rw [parameterizedWith_code h]; rfl⟩
theorem setCaptureSize (a b : Half) : Statement (.setCaptureSize a b) := fun _ h _ =>
  ⟨_, _, rfl, by rw [parameterizedWith_code h]; rfl⟩
theorem setFlags (w : Word) : Statement (.setFlags w) := fun _ h _ =>
  ⟨_, _, rfl, by rw [parameterizedWith_code h]; rfl⟩
theorem setDelayCount (w : Word) : Statement (.setDelayCount w) := fun _ h _ =>
  ⟨_, _, rfl, by rw [parameterizedWith_code h]; rfl⟩
theorem setReadCount (w : Word) : Statement (.setReadCount w) := fun _ h _ =>
  ⟨_, _, rfl, by rw [parameterizedWith_code h]; rfl⟩
theorem setTriggerMask0 (w : Word) : Statement (.setTriggerMask0 w) := fun _ h _ =>
  ⟨_, _, rfl, by rw [parameterizedWith_code h]; rfl⟩
theorem setTriggerValue0 (w : Word) : Statement (.setTriggerValue0 w) := fun _ h _ =>
  ⟨_, _, rfl, by rw [parameterizedWith_code h]; rfl⟩
theorem setTriggerConfig0 (w : Word) : Statement (.setTriggerConfig0 w) := fun _ h _ =>
  ⟨_, _, rfl, by rw [parameterizedWith_code h]; rfl⟩
theorem setTriggerMask1 (w : Word) : Statement (.setTriggerMask1 w) := fun _ h _ =>
  ⟨_, _, rfl, by rw [parameterizedWith_code h]; rfl⟩
theorem setTriggerValue1 (w : Word) : Statement (.setTriggerValue1 w) := fun _ h _ =>
  ⟨_, _, rfl, by rw [parameterizedWith_code h]; rfl⟩
theorem setTriggerConfig1 (w : Word) : Statement (.setTriggerConfig1 w) := fun _ h _ =>
  ⟨_, _, rfl, by rw [parameterizedWith_code h]; rfl⟩
theorem setTriggerMask2 (w : Word) : Statement (.setTriggerMask2 w) := fun _ h _ =>
  ⟨_, _, rfl, by rw [parameterizedWith_code h]; rfl⟩
theorem setTriggerValue2 (w : Word) : Statement (.setTriggerValue2 w) := fun _ h _ =>
  ⟨_, _, rfl, by rw [parameterizedWith_code h]; rfl⟩
theorem setTriggerConfig2 (w : Word) : Statement (.setTriggerConfig2 w) := fun _ h _ =>
  ⟨_, _, rfl, by rw [parameterizedWith_code h]; rfl⟩
theorem setTriggerMask3 (w : Word) : Statement (.setTriggerMask3 w) := fun _ h _ =>
  ⟨_, _, rfl, by rw [parameterizedWith_code h]; rfl⟩
theorem setTriggerValue3 (w : Word) : Statement (.setTriggerValue3 w) := fun _ h _ =>
  ⟨_, _, rfl, by rw [parameterizedWith_code h]; rfl⟩
theorem setTriggerConfig3 (w : Word) : Statement (.setTriggerConfig3 w) := fun _ h _ =>
  ⟨_, _, rfl, by rw [parameterizedWith_code h]; rfl⟩
theorem unknown (b : Byte) : Statement (.unknown b) := fun m _ h =>
  ⟨b, [], rfl, by
    have hb : opOfWith m.byte b = none := by simpa [Instr.wellFormedWith] using h
    simp [parameterizedWith, hb]⟩

end Sys2Proof.Laws.EncodeLength
end

