-- ==== Sys2Proof/Laws/Step.lean ====
section
/-! SUPPORT. What each command and each step can do, said once: if it answers a next state, that state is one of those
named here. Provers cite these instead of unfolding the step. -/

namespace Sys2Proof.Machine

theorem steps_zero (s : State) : steps 0 s = .next s := rfl

theorem steps_succ {n : Nat} {s t : State} (h : step s = .next t) : steps (n + 1) s = steps n t := by
  simp only [steps, h]

theorem steps_one (s : State) : steps 1 s = step s := by
  simp only [steps]
  cases step s <;> rfl

/-- A run of `m` steps to `t` and then `n` more is a run of `m + n`. -/
theorem steps_add {m n : Nat} : ∀ {s t : State}, steps m s = .next t → steps (m + n) s = steps n t := by
  induction m with
  | zero =>
    intro s t h
    cases h
    rw [Nat.zero_add]
  | succ m ih =>
    intro s t h
    cases hs : step s with
    | next s' =>
      rw [steps_succ hs] at h
      rw [Nat.add_right_comm, steps_succ hs]
      exact ih h
    | fault r => simp [steps, hs] at h
    | refused r => simp [steps, hs] at h

theorem run_succ (M : Host.Core) (n : Nat) (s : M.State) : M.run (n + 1) s = match M.step s with
    | .next t => M.run n t
    | .fault r => .fault r
    | .refused r => .refused r := by
  cases h : M.step s <;> simp [Host.Core.run, h]

/-- `steps` is the host's own run of the machine. -/
theorem steps_eq_run (n : Nat) : ∀ s : State, steps n s = Host.Core.run Sys2Proof.core n s := by
  induction n with
  | zero => intro s; rfl
  | succ n ih =>
    intro s
    refine Eq.trans ?_ (run_succ Sys2Proof.core n s).symm
    cases h : Sys2Proof.core.step s with
    | next t => exact (steps_succ (t := t) h).trans (ih t)
    | fault r =>
      have h' : step s = .fault r := h
      simp only [steps, h']
      rfl
    | refused r =>
      have h' : step s = .refused r := h
      simp only [steps, h']
      rfl

theorem overLimit_eq_false {p : Params} {n : Nat} : overLimit p.counterLimit n = false ↔ Within p n := by
  unfold overLimit Within
  cases p.counterLimit <;> simp

theorem overLimit_none {n : Nat} : overLimit none n = false := rfl

/-- A counter within the limit goes on. -/
theorem underLimit_of_within {c : Counter} {n : Nat} {s : State} (h : Within s.params n) (r : Result) :
    underLimit c n s r = r := by
  simp [underLimit, overLimit_eq_false.2 h]

/-- A counter past the limit raises the fault. -/
theorem underLimit_of_over {c : Counter} {n l : Nat} {s : State} (hl : s.params.counterLimit = some l) (h : l < n)
    (r : Result) : underLimit c n s r = .next (s.raiseFault (.counterLimit c)) := by
  simp [underLimit, overLimit, hl, h]

/-- What a bounded counter can do. -/
theorem underLimit_cases (c : Counter) (n : Nat) (s : State) (r : Result) :
    (¬ Within s.params n ∧ underLimit c n s r = .next (s.raiseFault (.counterLimit c))) ∨
    (Within s.params n ∧ underLimit c n s r = r) := by
  by_cases h : Within s.params n
  · exact .inr ⟨h, underLimit_of_within h r⟩
  · refine .inl ⟨h, ?_⟩
    have : overLimit s.params.counterLimit n = true := by
      cases ho : overLimit s.params.counterLimit n
      · exact absurd (overLimit_eq_false.1 ho) h
      · rfl
    simp [underLimit, this]

/-! ## Commands -/

/-- A setter keeps the configuration registers in their ranges. -/
theorem rateAfter_ok {c : CaptureConfig} (h : ConfigOk c) (q : Nat) : ConfigOk (rateAfter c q) := by
  unfold rateAfter
  split
  · exact ⟨h.count_le, h.delay_le, by simp, by simp⟩
  · refine ⟨h.count_le, h.delay_le, fun _ => ?_, fun _ => Nat.min_le_right _ _⟩
    show 1 ≤ min q Config.maxSampleRate
    have : 1 ≤ Config.maxSampleRate := by decide
    omega

theorem times4_half_le (a : Half) : times4 a.toNat ≤ Config.maxSampleDelay := by
  have := a.isLt
  unfold times4 Config.maxSampleDelay
  omega

theorem times4_word_le (n : Word) : times4 n.toNat ≤ Config.maxSampleDelay := by
  have := n.isLt
  unfold times4 Config.maxSampleDelay
  omega

/-- The commands whose value `COUNTER_LIMIT` bounds, ARM aside. -/
def Limited (i : Instr) : Prop :=
  (∃ d, i = .setDivider d) ∨ (∃ a b, i = .setCaptureSize a b) ∨ (∃ n, i = .setDelayCount n) ∨
    (∃ n, i = .setReadCount n)

/-- What a command other than ARM does: it writes configuration registers, within their ranges, or appends to `out`; or
it is one of the bounded setters and raises CounterLimit. -/
theorem exec_other {i : Instr} (hi : i ≠ .arm) (s : State) :
    (∃ c n, exec i s = .next (s.raiseFault (.counterLimit c)) ∧ Limited i ∧ ¬ Within s.params n ∧
      n ≤ Config.maxSampleDelay) ∨
    ∃ c bs, exec i s = .next ((s.withCfg c).writeOut bs) ∧ (ConfigOk s.cfg → ConfigOk c) ∧
      (i ≠ .queryId → i ≠ .queryMetadata → bs = []) := by
  have bounded : ∀ (c : Counter) (n : Nat) (r : Result), Limited i → n ≤ Config.maxSampleDelay →
      ((∃ c n, r = .next (s.raiseFault (.counterLimit c)) ∧ Limited i ∧ ¬ Within s.params n ∧
        n ≤ Config.maxSampleDelay) ∨ ∃ c bs, r = (.next ((s.withCfg c).writeOut bs) : Result) ∧
        (ConfigOk s.cfg → ConfigOk c) ∧ (i ≠ .queryId → i ≠ .queryMetadata → bs = [])) →
      (∃ c' n', underLimit c n s r = .next (s.raiseFault (.counterLimit c')) ∧ Limited i ∧ ¬ Within s.params n' ∧
        n' ≤ Config.maxSampleDelay) ∨
      ∃ c' bs, underLimit c n s r = .next ((s.withCfg c').writeOut bs) ∧ (ConfigOk s.cfg → ConfigOk c') ∧
        (i ≠ .queryId → i ≠ .queryMetadata → bs = []) := by
    intro c n r hlim hn hr
    rcases underLimit_cases c n s r with ⟨hw, h⟩ | ⟨_, h⟩
    · exact .inl ⟨c, n, h, hlim, hw, hn⟩
    · rw [h]; exact hr
  have skip : ∃ c bs, Host.Outcome.next s = (.next ((s.withCfg c).writeOut bs) : Result) ∧
      (ConfigOk s.cfg → ConfigOk c) ∧ (i ≠ .queryId → i ≠ .queryMetadata → bs = []) :=
    ⟨s.cfg, [], by simp, id, fun _ _ => rfl⟩
  have set : ∀ c : CaptureConfig, (ConfigOk s.cfg → ConfigOk c) →
      ∃ c' bs, Host.Outcome.next (s.withCfg c) = (.next ((s.withCfg c').writeOut bs) : Result) ∧
      (ConfigOk s.cfg → ConfigOk c') ∧ (i ≠ .queryId → i ≠ .queryMetadata → bs = []) :=
    fun c hc => ⟨c, [], by simp, hc, fun _ _ => rfl⟩
  have trig : ∀ c : CaptureConfig, c.sampleCount = s.cfg.sampleCount → c.sampleDelay = s.cfg.sampleDelay →
      c.sampleRate = s.cfg.sampleRate → c.rateValid = s.cfg.rateValid → ConfigOk s.cfg → ConfigOk c := by
    intro c h1 h2 h3 h4 h
    exact ⟨h1 ▸ h.count_le, h2 ▸ h.delay_le, h3 ▸ h4 ▸ h.rate_pos, h3 ▸ h4 ▸ h.rate_le⟩
  have mask : ∀ w, ConfigOk s.cfg → ConfigOk { s.cfg with triggerMask := lowByte w } :=
    fun w => trig _ rfl rfl rfl rfl
  have value : ∀ w, ConfigOk s.cfg → ConfigOk { s.cfg with triggerValue := lowByte w } :=
    fun w => trig _ rfl rfl rfl rfl
  have enable : ∀ w, ConfigOk s.cfg → ConfigOk { s.cfg with triggerEnabled := enableAfter (configByte w) } :=
    fun w => trig _ rfl rfl rfl rfl
  have aliasCase : ∀ (f : State → State) (c : CaptureConfig), f s = s.withCfg c → (ConfigOk s.cfg → ConfigOk c) →
      ∃ c' bs, onAlias f s = .next ((s.withCfg c').writeOut bs) ∧ (ConfigOk s.cfg → ConfigOk c') ∧
      (i ≠ .queryId → i ≠ .queryMetadata → bs = []) := by
    intro f c hf hc
    unfold onAlias
    cases s.params.stageAlias
    · exact skip
    · simpa [hf] using set c hc
  cases i with
  | arm => exact absurd rfl hi
  | reset => exact .inr skip
  | xon => exact .inr skip
  | xoff => exact .inr skip
  | unknown b => exact .inr skip
  | queryId => exact .inr ⟨s.cfg, identityReply, rfl, id, fun h => absurd rfl h⟩
  | queryMetadata => exact .inr ⟨s.cfg, s.params.metadataReply, rfl, id, fun _ h => absurd rfl h⟩
  | setDivider d =>
    refine bounded _ _ _ (.inl ⟨d, rfl⟩) ?_ (.inr (set _ fun h => rateAfter_ok h _))
    have := d.isLt
    unfold Config.maxSampleDelay
    omega
  | setCaptureSize a b =>
    have hl : Limited (.setCaptureSize a b) := .inr (.inl ⟨a, b, rfl⟩)
    exact bounded _ _ _ hl (times4_half_le a) (bounded _ _ _ hl (times4_half_le b)
      (.inr (set _ fun h => ⟨Nat.min_le_right _ _, times4_half_le b, h.rate_pos, h.rate_le⟩)))
  | setFlags f => exact .inr <| set _ (trig _ rfl rfl rfl rfl)
  | setDelayCount n =>
    exact bounded _ _ _ (.inr (.inr (.inl ⟨n, rfl⟩))) (times4_word_le n)
      (.inr (set _ fun h => ⟨h.count_le, times4_word_le n, h.rate_pos, h.rate_le⟩))
  | setReadCount n =>
    exact bounded _ _ _ (.inr (.inr (.inr ⟨n, rfl⟩))) (times4_word_le n)
      (.inr (set _ fun h => ⟨Nat.min_le_right _ _, h.delay_le, h.rate_pos, h.rate_le⟩))
  | setTriggerMask0 w => exact .inr <| set _ (mask w)
  | setTriggerValue0 w => exact .inr <| set _ (value w)
  | setTriggerConfig0 w => exact .inr <| set _ (enable w)
  | setTriggerMask1 w => exact .inr <| aliasCase _ _ rfl (mask w)
  | setTriggerValue1 w => exact .inr <| aliasCase _ _ rfl (value w)
  | setTriggerConfig1 w => exact .inr <| aliasCase _ _ rfl (enable w)
  | setTriggerMask2 w => exact .inr <| aliasCase _ _ rfl (mask w)
  | setTriggerValue2 w => exact .inr <| aliasCase _ _ rfl (value w)
  | setTriggerConfig2 w => exact .inr <| aliasCase _ _ rfl (enable w)
  | setTriggerMask3 w => exact .inr <| aliasCase _ _ rfl (mask w)
  | setTriggerValue3 w => exact .inr <| aliasCase _ _ rfl (value w)
  | setTriggerConfig3 w => exact .inr <| aliasCase _ _ rfl (enable w)

/-- What ARM does: one of the two faults, or the latches and the start of the capture. -/
theorem execArm_cases (s : State) :
    (s.cfg.rateValid = false ∧ execArm s = .next (s.raiseFault .rateUndefined)) ∨
    (s.cfg.rateValid = true ∧ overLimit s.params.counterLimit (armedLatches s.cfg).capBudget = true ∧
      execArm s = .next (s.raiseFault (.counterLimit .capBudget))) ∨
    (s.cfg.rateValid = true ∧ overLimit s.params.counterLimit (armedLatches s.cfg).capBudget = false ∧
      execArm s = .next ((s.withTs (armedLatches s.cfg)).withSeq
        (if waitsForTrigger (armedLatches s.cfg) then .trigWait else .capFirst))) := by
  unfold execArm underLimit
  cases hv : s.cfg.rateValid
  · simp
  · cases hl : overLimit s.params.counterLimit (armedLatches s.cfg).capBudget <;> simp [hl]

/-- The latches of an ARM are in their ranges. -/
theorem armedLatches_ok {c : CaptureConfig} (h : ConfigOk c) (hv : c.rateValid = true) :
    LatchesOk (armedLatches c) := by
  have h1 := h.rate_pos hv
  have h2 := h.rate_le hv
  have hr : captureRate c.sampleRate ≤ Config.maxSampleRate := Nat.div_le_self _ _
  refine ⟨Nat.div_pos h2 h1, hr, ?_⟩
  show c.sampleCount * captureRate c.sampleRate ≤ Config.virtualCapacity * Config.maxSampleRate
  exact Nat.mul_le_mul h.count_le hr

/-- Every command answers a next state. -/
theorem exec_next (i : Instr) (s : State) : ∃ t, exec i s = .next t := by
  by_cases hi : i = .arm
  · subst hi
    rcases execArm_cases s with ⟨_, h⟩ | ⟨_, _, h⟩ | ⟨_, _, h⟩ <;> exact ⟨_, h⟩
  · obtain ⟨c, _, h, _⟩ | ⟨c, bs, h, _⟩ := exec_other hi s <;> exact ⟨_, h⟩

/-! ## The framer -/

/-- One byte read: `cmd` and the received bytes change alone; the framer stays well formed, and it is cleared when a
frame is complete. -/
theorem fetch_cases (s : State) :
    ∃ c f, (fetch s).1 = (s.withCmd c).withFrame f ∧ (FramerOk s.params.opcodes s.frame → FramerOk s.params.opcodes f) ∧
      ((fetch s).2 ≠ none → f = []) := by
  have keep : ∀ c, ∃ c' f, s.withCmd c = (s.withCmd c').withFrame f ∧
      (FramerOk s.params.opcodes s.frame → FramerOk s.params.opcodes f) ∧
      ((none : Option Instr) ≠ none → f = []) := fun c => ⟨c, s.frame, rfl, id, fun h => absurd rfl h⟩
  unfold fetch
  split
  · exact ⟨s.cmd, s.frame, rfl, id, fun h => absurd rfl h⟩
  · exact keep _
  · rename_i b rest _
    unfold takeByte
    split
    · exact ⟨rest, [], rfl, fun _ => ⟨by simp, by simp⟩, fun _ => rfl⟩
    · rename_i e he
      refine ⟨rest, s.frame ++ [b], rfl, fun hok => ?_, fun h => absurd rfl h⟩
      simp only [State.withCmd_frame, State.withCmd_params] at he
      cases hf : s.frame with
      | nil =>
        rw [hf] at he
        refine ⟨by simp, ?_⟩
        intro o ho
        simp at ho
        subst ho
        by_contra hp
        obtain ⟨i, hi⟩ := decodeWith_immediate (by simpa using hp) ([] : List Byte)
        simp [hi] at he
      | cons o ps =>
        rw [hf] at he hok
        have hp : parameterizedWith s.params.opcodes.byte o = true := hok.opcode o rfl
        refine ⟨?_, by simpa using hp⟩
        by_contra hlen
        have hl : ps.length = 3 := by
          have := hok.length_le
          simp at this hlen
          omega
        match ps, hl with
        | [p1, p2, p3], _ =>
          cases ho : opOfWith s.params.opcodes.byte o with
          | none => simp [parameterizedWith, ho] at hp
          | some op =>
            have hfm : formatOf op ≠ .imm := by simpa [parameterizedWith, ho] using hp
            have := decodeWith_parameterized ho hfm p1 p2 p3 b []
            simp [this] at he

/-! ## The sequencer -/

/-- A TRIG_WAIT step samples the stop once, polls at most once, and changes `seq` if at all to CAP_FIRST. -/
theorem trigWaitStep_cases (s : State) :
    ∃ ps d q, trigWaitStep s =
      .next ((s.withEnv { s.env with polls := ps, stops := s.env.stops.drop 1, drawn := d }).withSeq q) ∧
      (q = s.seq ∨ q = .capFirst) := by
  obtain ⟨d1, h1⟩ := stopSampled_state s
  obtain ⟨d2, h2⟩ := portRead_state (stopSampled s).2
  unfold trigWaitStep
  simp only
  split
  · exact ⟨s.env.polls, d1, .capFirst, by rw [h1], .inr rfl⟩
  · split
    · exact ⟨s.env.polls.drop 1, d2, .capFirst, by rw [h2, h1]; rfl, .inr rfl⟩
    · exact ⟨s.env.polls.drop 1, d2, s.seq, by rw [h2, h1]; rfl, .inl rfl⟩

/-- A CAP_FIRST step polls once, and writes run 0 and goes to CAP_LOOP, or raises CounterLimit at a limit of zero. -/
theorem capFirstStep_cases (s : State) :
    ∃ d x, (Within s.params 1 ∧ capFirstStep s =
      .next (((s.withEnv { s.env with polls := s.env.polls.drop 1, drawn := d }).withSeq .capLoop).withCap
        ⟨s.cap.runs.write 0 ⟨x, 1⟩, 0, x, 1⟩)) ∨
      (¬ Within s.params 1 ∧ capFirstStep s =
        .next ((s.withEnv { s.env with polls := s.env.polls.drop 1, drawn := d }).raiseFault
          (.counterLimit .runCount))) := by
  obtain ⟨d, h⟩ := portRead_state s
  refine ⟨d, (portRead s).1, ?_⟩
  unfold capFirstStep rleFirst
  simp only [h]
  rw [bufWrite_of_lt _ (by decide)]
  rcases underLimit_cases .runCount 1 (s.withEnv { s.env with polls := s.env.polls.drop 1, drawn := d }) _ with
    ⟨hw, he⟩ | ⟨hw, he⟩
  · exact .inr ⟨hw, he⟩
  · exact .inl ⟨hw, he.trans rfl⟩

/-- What `rle_update` does when it answers a next state: a fault, one more sample in the current run, or a new run. -/
theorem rleUpdate_cases {x : Byte} {s t : State} (h : rleUpdate x s = .next t) :
    (t = s.raiseFault (.counterLimit .runCount) ∨ t = s.raiseFault (.counterLimit .taken)) ∨
    (x = s.cap.prev ∧ s.cap.cursor < Config.bufferSize ∧ t = s.withCap
      ⟨s.cap.runs.write s.cap.cursor ⟨(s.cap.runs.read s.cap.cursor).value, (s.cap.runs.read s.cap.cursor).count + 1⟩,
        s.cap.cursor, x, s.cap.taken + 1⟩) ∨
    (x ≠ s.cap.prev ∧ s.cap.cursor + 1 < Config.bufferSize ∧ ∃ m,
      t = s.withCap ⟨m, s.cap.cursor + 1, x, s.cap.taken + 1⟩ ∧
      (s.cap.runs.wf = true → m.wf = true ∧ m.read (s.cap.cursor + 1) = ⟨x, 1⟩) ∧
      ∀ i, i ≠ s.cap.cursor + 1 → m.read i = s.cap.runs.read i) := by
  unfold rleUpdate openRun underLimit at h
  by_cases hx : x = s.cap.prev
  · simp only [hx, if_true] at h
    by_cases hc : s.cap.cursor < Config.bufferSize
    · simp only [bufRead_of_lt hc, countSample, bufWrite_of_lt _ hc, Option.map_some] at h
      split at h
      · cases h; exact .inl (.inl rfl)
      · split at h
        · cases h; exact .inl (.inr rfl)
        · cases h; exact .inr (.inl ⟨hx, hc, by simp [hx]⟩)
    · simp [bufRead, hc] at h
  · simp only [hx, if_false] at h
    by_cases hc : s.cap.cursor + 1 < Config.bufferSize
    · simp only [bufWrite_of_lt _ hc, Option.map_some, bufRead_of_lt hc, countSample] at h
      split at h
      · cases h; exact .inl (.inl rfl)
      · split at h
        · cases h; exact .inl (.inr rfl)
        · cases h
          refine .inr (.inr ⟨hx, hc, _, rfl, fun hw => ?_, fun i hi => ?_⟩)
          · refine ⟨Memory.wf_write _ (Memory.wf_write _ hw hc) hc, ?_⟩
            rw [Memory.read_write_self _ _ (Memory.wf_write _ hw hc), Memory.read_write_self _ _ hw]
          · rw [Memory.read_write_ne _ hi, Memory.read_write_ne _ hi]
    · simp [bufWrite, hc] at h

/-- `rle_update` answers a next state whenever the slot it would write exists. -/
theorem rleUpdate_next (x : Byte) {s : State} (h : s.cap.cursor + 1 < Config.bufferSize) :
    ∃ t, rleUpdate x s = .next t := by
  have hc : s.cap.cursor < Config.bufferSize := by omega
  unfold rleUpdate openRun underLimit
  by_cases hx : x = s.cap.prev
  · simp only [hx, if_true, bufRead_of_lt hc, countSample, bufWrite_of_lt _ hc, Option.map_some]
    split
    · exact ⟨_, rfl⟩
    · split <;> exact ⟨_, rfl⟩
  · simp only [hx, if_false, bufWrite_of_lt _ h, Option.map_some, bufRead_of_lt h, countSample]
    split
    · exact ⟨_, rfl⟩
    · split <;> exact ⟨_, rfl⟩

/-- What a CAP_LOOP step does, after sampling the stop once: the report's set-up when a stop condition holds, and
`rle_update` of one poll otherwise. -/
theorem capLoopStep_cases (s : State) :
    ∃ d stop,
      (boundaryStop stop s.ts s.cap = true ∧
        capLoopStep s = reportInit (s.withEnv { s.env with stops := s.env.stops.drop 1, drawn := d })) ∨
      (boundaryStop stop s.ts s.cap = false ∧ ∃ x, capLoopStep s = rleUpdate x
        (s.withEnv { s.env with polls := s.env.polls.drop 1, stops := s.env.stops.drop 1, drawn := d })) := by
  obtain ⟨d1, h1⟩ := stopSampled_state s
  obtain ⟨d2, h2⟩ := portRead_state (stopSampled s).2
  unfold capLoopStep
  simp only
  cases hb : boundaryStop (stopSampled s).1 (stopSampled s).2.ts (stopSampled s).2.cap with
  | true =>
    refine ⟨d1, (stopSampled s).1, .inl ⟨by rw [h1] at hb; exact hb, ?_⟩⟩
    simp [h1]
  | false =>
    refine ⟨d2, (stopSampled s).1, .inr ⟨by rw [h1] at hb; exact hb, (portRead (stopSampled s).2).1, ?_⟩⟩
    simp only [Bool.false_eq_true, if_false, pollStep]
    rw [h2, h1]
    rfl

theorem boundaryStop_eq_false {b : Bool} {l : TriggerState} {c : Capture} (h : boundaryStop b l c = false) :
    b = false ∧ c.taken < l.capBudget ∧ c.cursor ≠ Config.bufferSize - 1 := by
  simp only [boundaryStop, Bool.or_eq_false_iff, decide_eq_false_iff_not] at h
  exact ⟨h.1.1, by omega, h.2⟩

theorem reportInit_of_lt {s : State} (h : s.cap.cursor < Config.bufferSize) :
    reportInit s = .next ((s.withRep ⟨s.cap.cursor, (s.cap.runs.read s.cap.cursor).count, 0⟩).withSeq .report) := by
  simp [reportInit, bufRead_of_lt h]

theorem reportInit_eq_next {s t : State} (h : reportInit s = .next t) :
    s.cap.cursor < Config.bufferSize ∧
      t = (s.withRep ⟨s.cap.cursor, (s.cap.runs.read s.cap.cursor).count, 0⟩).withSeq .report := by
  by_cases hc : s.cap.cursor < Config.bufferSize
  · rw [reportInit_of_lt hc] at h
    cases h
    exact ⟨hc, rfl⟩
  · simp [reportInit, bufRead, hc] at h

/-- What a REPORT step does when it answers a next state: the fault, an offered byte not taken or taken, a walked
sample, the next older run, or the end. -/
theorem reportStep_cases {s t : State} (h : reportStep s = .next t) :
    (0 < s.rep.k ∧ t = s.raiseFault (.counterLimit .repC)) ∨
    (0 < s.rep.k ∧ s.rep.c + 1 = s.ts.capRate ∧ ∃ d,
      t = s.withEnv { s.env with accepts := s.env.accepts.drop 1, drawn := d }) ∨
    (0 < s.rep.k ∧ s.rep.c + 1 = s.ts.capRate ∧ ∃ d,
      t = ((s.withEnv { s.env with accepts := s.env.accepts.drop 1, drawn := d }).writeOut
        [(s.cap.runs.read s.rep.j).value]).withRep ⟨s.rep.j, s.rep.k - 1, 0⟩) ∨
    (0 < s.rep.k ∧ s.rep.c + 1 ≠ s.ts.capRate ∧ t = s.withRep ⟨s.rep.j, s.rep.k - 1, s.rep.c + 1⟩) ∨
    (s.rep.k = 0 ∧ 0 < s.rep.j ∧ t = s.withRep ⟨s.rep.j - 1, (s.cap.runs.read (s.rep.j - 1)).count, s.rep.c⟩) ∨
    (s.rep.k = 0 ∧ s.rep.j = 0 ∧ t = s.withSeq .idle) := by
  unfold reportStep walkSample underLimit emitSample nextRun reportEnd at h
  by_cases hk : 0 < s.rep.k
  · simp only [hk, if_true] at h
    split at h
    · cases h; exact .inl ⟨hk, rfl⟩
    · split at h
      · rename_i hc
        by_cases hj : s.rep.j < Config.bufferSize
        · rw [bufRead_of_lt hj] at h
          obtain ⟨d, he | he⟩ := emit_cases (s.cap.runs.read s.rep.j).value s
          · simp only [he, if_true] at h; cases h; exact .inr (.inr (.inl ⟨hk, hc, d, rfl⟩))
          · simp only [he, Bool.false_eq_true, if_false] at h; cases h; exact .inr (.inl ⟨hk, hc, d, rfl⟩)
        · simp [bufRead, hj] at h
      · rename_i hc
        cases h
        exact .inr (.inr (.inr (.inl ⟨hk, hc, rfl⟩)))
  · have hk0 : s.rep.k = 0 := by omega
    simp only [hk, if_false] at h
    split at h
    · rename_i hj0
      by_cases hj : s.rep.j - 1 < Config.bufferSize
      · rw [bufRead_of_lt hj] at h
        cases h
        exact .inr (.inr (.inr (.inr (.inl ⟨hk0, hj0, rfl⟩))))
      · simp [bufRead, hj] at h
    · cases h
      exact .inr (.inr (.inr (.inr (.inr ⟨hk0, by omega, rfl⟩))))

/-- A REPORT step answers a next state whenever `rep_j` is a slot. -/
theorem reportStep_next {s : State} (hj : s.rep.j < Config.bufferSize) : ∃ t, reportStep s = .next t := by
  unfold reportStep walkSample underLimit emitSample nextRun reportEnd
  rw [bufRead_of_lt hj, bufRead_of_lt (show s.rep.j - 1 < Config.bufferSize by omega)]
  simp only
  split
  · split
    · exact ⟨_, rfl⟩
    · split
      · split <;> exact ⟨_, rfl⟩
      · exact ⟨_, rfl⟩
  · split <;> exact ⟨_, rfl⟩

/-- An unfaulted block runs the rule of its sequencer state. -/
theorem step_unfaulted {s : State} (h : s.fault = .none) :
    step s = match s.seq with
      | .idle => idleStep s
      | .trigWait => trigWaitStep s
      | .capFirst => capFirstStep s
      | .capLoop => capLoopStep s
      | .report => reportStep s := by
  cases hq : s.seq <;> simp [step, h, hq]

/-- A block that answers a next state was not faulted. -/
theorem fault_none_of_step {s t : State} (h : step s = .next t) : s.fault = .none := by
  unfold step at h
  cases hf : s.fault <;> simp_all

end Sys2Proof.Machine
end

