-- ==== Sys2Proof/Tests/Slice0.lean ====
section
/-! SUPPORT. The model's own tests: frames written out from the spec's encoding, one-step tests whose results are the
vectors of 95_test_vectors.md, and for each obligation with hypotheses a witness that meets them all. -/

namespace Sys2Proof.Tests

open Sys2Proof.Machine

/-! ## Well-formedness -/

/-- An `unknown` with the byte of a known opcode is no frame. -/
theorem test_wellFormed_refuses_known_byte :
    (Instr.unknown 0x01).wellFormed = false ∧ (Instr.unknown 0xCE).wellFormed = false := by decide

/-- 30_encoding.md R79: the fourth kind of a trigger opcode is no known opcode. -/
theorem test_wellFormed_accepts_unknown_byte :
    (Instr.unknown 0xC3).wellFormed = true ∧ (Instr.unknown 0xFF).wellFormed = true ∧
    (Instr.setDivider 0xFFFFFFFF).wellFormed = true := by decide

/-! ## Decoding: one frame for every row of the opcode table (30_encoding.md R70 to R78) -/

theorem test_decode_reset : decode [0x00] = .ok (.reset, []) := rfl
theorem test_decode_arm : decode [0x01] = .ok (.arm, []) := rfl
theorem test_decode_queryId : decode [0x02] = .ok (.queryId, []) := rfl
theorem test_decode_queryMetadata : decode [0x04] = .ok (.queryMetadata, []) := rfl
theorem test_decode_xon : decode [0x11] = .ok (.xon, []) := rfl
theorem test_decode_xoff : decode [0x13] = .ok (.xoff, []) := rfl
/-- 95_test_vectors.md V1: parameter bytes equal to opcodes are still parameters, the first the least significant. -/
theorem test_decode_setDivider : decode [0x80, 0x00, 0x01, 0x02, 0x03] = .ok (.setDivider 0x03020100, []) := rfl
/-- The first pair is `param0` (30_encoding.md R73). -/
theorem test_decode_setCaptureSize :
    decode [0x81, 0x34, 0x12, 0x78, 0x56] = .ok (.setCaptureSize 0x1234 0x5678, []) := rfl
theorem test_decode_setFlags : decode [0x82, 0x78, 0x56, 0x34, 0x12] = .ok (.setFlags 0x12345678, []) := rfl
theorem test_decode_setDelayCount : decode [0x83, 0x10, 0x00, 0x00, 0x00] = .ok (.setDelayCount 16, []) := rfl
theorem test_decode_setReadCount : decode [0x84, 0xE8, 0x03, 0x00, 0x00] = .ok (.setReadCount 1000, []) := rfl
theorem test_decode_stage0 :
    decode [0xC0, 0x01, 0xFF, 0x00, 0x00] = .ok (.setTriggerMask0 0x0000FF01, []) ∧
    decode [0xC1, 0x81, 0x00, 0x00, 0x00] = .ok (.setTriggerValue0 0x00000081, []) ∧
    decode [0xC2, 0x00, 0x00, 0x00, 0x08] = .ok (.setTriggerConfig0 0x08000000, []) := ⟨rfl, rfl, rfl⟩
theorem test_decode_stage1 :
    decode [0xC4, 0x0F, 0x00, 0x00, 0x00] = .ok (.setTriggerMask1 0x0000000F, []) ∧
    decode [0xC5, 0x0F, 0x00, 0x00, 0x00] = .ok (.setTriggerValue1 0x0000000F, []) ∧
    decode [0xC6, 0x00, 0x00, 0x00, 0x08] = .ok (.setTriggerConfig1 0x08000000, []) := ⟨rfl, rfl, rfl⟩
theorem test_decode_stage2 :
    decode [0xC8, 0x0F, 0x00, 0x00, 0x00] = .ok (.setTriggerMask2 0x0000000F, []) ∧
    decode [0xC9, 0xFF, 0x00, 0x00, 0x00] = .ok (.setTriggerValue2 0x000000FF, []) ∧
    decode [0xCA, 0x00, 0x00, 0x00, 0x08] = .ok (.setTriggerConfig2 0x08000000, []) := ⟨rfl, rfl, rfl⟩
theorem test_decode_stage3 :
    decode [0xCC, 0x0F, 0x00, 0x00, 0x00] = .ok (.setTriggerMask3 0x0000000F, []) ∧
    decode [0xCD, 0x0F, 0x00, 0x00, 0x00] = .ok (.setTriggerValue3 0x0000000F, []) ∧
    decode [0xCE, 0x00, 0x00, 0x00, 0x08] = .ok (.setTriggerConfig3 0x08000000, []) := ⟨rfl, rfl, rfl⟩
/-- 95_test_vectors.md V1: an unknown byte is one byte long, bit 7 set or not. -/
theorem test_decode_unknown :
    decode [0x85, 0x01, 0x02, 0x03, 0x04] = .ok (.unknown 0x85, [0x01, 0x02, 0x03, 0x04]) ∧
    decode [0x03] = .ok (.unknown 0x03, []) := ⟨rfl, rfl⟩
/-- 95_test_vectors.md V1: `81 FF` is a pending frame. -/
theorem test_decode_short : decode [0x81, 0xFF] = .error (.truncated 0x81 2) ∧ decode [] = .error .noByte :=
  ⟨rfl, rfl⟩
/-- The opcode table numbers the first byte as bits 7 to 0. -/
theorem test_decodeTableWord :
    decodeTableWord 40 0x0000006380 = some (.setDivider 0x63) ∧
    decodeTableWord 8 0x02 = some .queryId ∧ decodeTableWord 8 0xC6 = some (.setTriggerConfig1 0) :=
  ⟨rfl, rfl, rfl⟩

/-! ## One step of an instruction (95_test_vectors.md V2 to V5, V8) -/

/-- The state of a `next` outcome. -/
def after : Result → Option State
  | .next s => some s
  | .fault _ => none
  | .refused _ => none

/-- A power-on with a metadata reply of two bytes. -/
def base : State := State.powerOn ⟨100000000, none, false, [0x4D, 0x00], .sump⟩ CfgReset.zero

/-- `base` with `STAGE_ALIAS` set. -/
def aliased : State := State.powerOn ⟨100000000, none, true, [], .sump⟩ CfgReset.zero

/-- `base` with `COUNTER_LIMIT = l`. -/
def limited (l : Nat) : State := State.powerOn ⟨100000000, some l, false, [], .sump⟩ CfgReset.zero

/-- Without a limit every value is within it. -/
theorem within_base (n : Nat) : Within base.params n := fun _ h => by cases h

/-- A value up to the limit is within it, the limit itself among them. -/
theorem within_limited {l n : Nat} (h : n ≤ l) : Within (limited l).params n := fun _ e => by cases e; exact h

/-- A configured block: 4 samples at 500 kHz, and a trigger on probe 0 high. -/
def configured (s : State) : State :=
  { s with cfg := { s.cfg with
      sampleCount := 4, sampleRate := 500000, rateValid := true,
      triggerMask := 0x01, triggerValue := 0x01, triggerEnabled := true } }

/-- A map that swaps the bytes of RESET and ARM and moves QUERY_ID out of the SUMP values. -/
def swappedMap : OpcodeMap := { OpcodeMap.sump with reset := 0x01, arm := 0x00, queryId := 0x7E }

/-- The swapped map gives two opcodes two bytes. -/
theorem swappedMap_distinct : swappedMap.Distinct := by
  intro o o' h
  cases o <;> cases o' <;> first | rfl | exact absurd h (by decide)

/-- `base` under the swapped map, with bytes to come. -/
def swapped (coming : List LinkEvent) : State :=
  { base with params := { base.params with opcodes := swappedMap }, cmd := coming }

/-- 93_implementation_defined.md I1: the block reads its opcodes from its own map, the SUMP values after reset. -/
theorem test_reset_has_sump_map : State.reset.params.opcodes = .sump := rfl
theorem test_swapped_map_moves_arm :
    (after (step (swapped [.byte 0x00]))).map (·.fault) = some .rateUndefined ∧
    (after (step (swapped [.byte 0x01]))).map (·.fault) = some .none := by decide
theorem test_swapped_map_moves_queryId :
    (after (step (swapped [.byte 0x7E]))).map (·.out) = some [0x31, 0x41, 0x4C, 0x53] ∧
    (after (step (swapped [.byte 0x02]))).map (·.out) = some [] := by decide

theorem test_queryId_reply : (after (exec .queryId base)).map (·.out) = some [0x31, 0x41, 0x4C, 0x53] := by decide
theorem test_queryMetadata_reply : (after (exec .queryMetadata base)).map (·.out) = some [0x4D, 0x00] := by decide
/-- V12: RESET keeps the configuration. -/
theorem test_reset_keeps_configuration :
    (after (exec .reset (configured base))).map (·.cfg.sampleCount) = some 4 := by decide
theorem test_xon_xoff_write_nothing :
    (after (exec .xon base)).map (·.out) = some [] ∧ (after (exec .xoff base)).map (·.out) = some [] := by decide
theorem test_unknown_is_ignored : (after (exec (.unknown 0xC3) base)).map (·.seq) = some .idle := by decide
theorem test_setDivider_199 :
    (after (exec (.setDivider 199) base)).map (fun s => (s.cfg.sampleRate, s.cfg.rateValid)) = some (500000, true) := by
  decide
theorem test_setDivider_all_ones :
    (after (exec (.setDivider 0xFFFFFFFF) (configured base))).map (·.cfg.rateValid) = some false := by decide
/-- 93_implementation_defined.md I4, 00_scope.md R9: `d + 1 = 200` passes a limit of 199 and meets one of 200. -/
theorem test_setDivider_past_limit :
    (after (exec (.setDivider 199) (limited 199))).map (fun s => (s.fault, s.cfg.rateValid)) =
      some (.counterLimit .divisor, false) ∧
    (after (exec (.setDivider 199) (limited 200))).map (fun s => (s.fault, s.cfg.rateValid)) = some (.none, true) := by
  decide
theorem test_setCaptureSize_1_2 :
    (after (exec (.setCaptureSize 1 2) base)).map (fun s => (s.cfg.sampleCount, s.cfg.sampleDelay)) = some (4, 8) := by
  decide
theorem test_setCaptureSize_all_ones :
    (after (exec (.setCaptureSize 0xFFFF 0xFFFF) base)).map (fun s => (s.cfg.sampleCount, s.cfg.sampleDelay)) =
      some (262140, 262140) := by decide
/-- 92_eei_decisions.md D4: `n * 4` is a counter; which product is refused tells the fault. -/
theorem test_setCaptureSize_past_limit :
    (after (exec (.setCaptureSize 2 1) (limited 7))).map (·.fault) = some (.counterLimit .countProduct) ∧
    (after (exec (.setCaptureSize 1 2) (limited 7))).map (·.fault) = some (.counterLimit .delayProduct) := by decide
theorem test_setFlags : (after (exec (.setFlags 0x12345678) base)).map (·.cfg.flags) = some 0x12345678 := by decide
theorem test_setDelayCount_all_ones :
    (after (exec (.setDelayCount 0xFFFFFFFF) base)).map (·.cfg.sampleDelay) = some 17179869180 := by decide
theorem test_setDelayCount_past_limit :
    (after (exec (.setDelayCount 2) (limited 7))).map (fun s => (s.fault, s.cfg.sampleDelay)) =
      some (.counterLimit .delayProduct, 0) := by decide
theorem test_setReadCount_1000 : (after (exec (.setReadCount 1000) base)).map (·.cfg.sampleCount) = some 4000 := by
  decide
theorem test_setReadCount_clamps :
    (after (exec (.setReadCount 0x10000001) base)).map (·.cfg.sampleCount) = some 1073741824 := by decide
/-- The product counts before the clamp: `0x10000001 * 4` passes a limit of `VIRTUAL_CAPACITY`. -/
theorem test_setReadCount_past_limit :
    (after (exec (.setReadCount 0x10000001) (limited 1073741824))).map (fun s => (s.fault, s.cfg.sampleCount)) =
      some (.counterLimit .countProduct, 0) := by decide
theorem test_setTriggerMask0_drops_high_bits :
    (after (exec (.setTriggerMask0 0x00000100) (configured base))).map (·.cfg.triggerMask) = some 0x00 := by decide
theorem test_setTriggerValue0 :
    (after (exec (.setTriggerValue0 0x00000081) base)).map (·.cfg.triggerValue) = some 0x81 := by decide
/-- V5: `F7` has bit 2 set, `FB` has bit 2 clear and bit 3 set. -/
theorem test_setTriggerConfig0_serial_wins :
    (after (exec (.setTriggerConfig0 0xF7000000) (configured base))).map (·.cfg.triggerEnabled) = some false ∧
    (after (exec (.setTriggerConfig0 0xFB000000) base)).map (·.cfg.triggerEnabled) = some true := by decide
/-- V5: `00 00 08 00`: bit 3 of `frame[3]` is not the enable. -/
theorem test_setTriggerConfig0_reads_byte_four :
    (after (exec (.setTriggerConfig0 0x00080000) (configured base))).map (·.cfg.triggerEnabled) = some false := by decide
theorem test_stage1_skips :
    (after (exec (.setTriggerMask1 0x0F) base)).map (·.cfg.triggerMask) = some 0x00 ∧
    (after (exec (.setTriggerMask1 0x0F) aliased)).map (·.cfg.triggerMask) = some 0x0F := by decide
theorem test_stage2_skips :
    (after (exec (.setTriggerValue2 0xFF) base)).map (·.cfg.triggerValue) = some 0x00 ∧
    (after (exec (.setTriggerValue2 0xFF) aliased)).map (·.cfg.triggerValue) = some 0xFF := by decide
theorem test_stage3_skips :
    (after (exec (.setTriggerConfig3 0x08000000) base)).map (·.cfg.triggerEnabled) = some false ∧
    (after (exec (.setTriggerConfig3 0x08000000) aliased)).map (·.cfg.triggerEnabled) = some true := by decide
/-- V8: rate 500,000 and 4 samples give rate 2 and budget 8; the trigger is on, so the wait begins. -/
theorem test_arm_latches :
    (after (exec .arm (configured base))).map (fun s => (s.ts.capRate, s.ts.capBudget, s.seq)) =
      some (2, 8, .trigWait) := by decide
/-- V8: without a valid rate ARM faults and stays in IDLE. -/
theorem test_arm_without_rate :
    (after (exec .arm base)).map (fun s => (s.fault, s.seq)) = some (.rateUndefined, .idle) := by decide

/-- V6: an "any" test, not an equality compare. -/
theorem test_match_vectors :
    triggerMatch 0x01 0x01 0x00 = false ∧ triggerMatch 0x03 0x01 0x00 = true ∧ triggerMatch 0x0F 0x05 0x00 = true ∧
    triggerMatch 0x0F 0x05 0xFA = false ∧ triggerMatch 0xF0 0x0F 0xFF = false ∧ triggerMatch 0xF0 0x0F 0xEF = true := by
  decide

/-- What the host places runs next: a QUERY_ID from reset. -/
theorem test_placed_word_runs :
    (after (step (State.reset.withFetchWord 8 0x02))).map (·.out) = some [0x31, 0x41, 0x4C, 0x53] := by decide

/-! ## States for the witnesses -/

/-- Waiting for a trigger on probe 0 high: the poll `00` fails, the poll `03` matches. -/
def waiting (stop : Bool) (polls : List Byte) : State :=
  { base with seq := .trigWait, ts := ⟨0x01, 0x01, true, 2, 8⟩, env := ⟨polls, stop :: [true, true], [], 0⟩ }

/-- About to take the first sample, at rate 1 and budget 8. -/
def first (polls : List Byte) (stops : List Bool) : State :=
  { base with seq := .capFirst, ts := ⟨0, 0, false, 1, 8⟩, env := ⟨polls, stops, [], 0⟩ }

/-- In the capture loop after the samples `0A 0A 0B`. -/
def looping (s : State) (polls : List Byte) (stop : Bool) : State :=
  { s with seq := .capLoop, ts := ⟨0, 0, false, 1, 8⟩, cap := ⟨[(0, ⟨0x0A, 2⟩), (1, ⟨0x0B, 1⟩)], 1, 0x0B, 3⟩,
           env := ⟨polls, [stop], [], 0⟩ }

/-- In the capture loop with `cursor = k` in a run of `n` samples `0B`, `taken` of them in all, with the given
budget. -/
def loopingAt (s : State) (k n taken budget : Nat) (x : Byte) (stop : Bool) : State :=
  { s with seq := .capLoop, ts := ⟨0, 0, false, 1, budget⟩, cap := ⟨[(k, ⟨0x0B, n⟩)], k, 0x0B, taken⟩,
           env := ⟨[x], [stop], [], 0⟩ }

/-- Reporting the runs `(0A,2), (0B,1)` at rate 2, with the given registers and answers of the host. -/
def reporting (s : State) (r : Report) (accepts : List Bool) : State :=
  { s with seq := .report, ts := ⟨0, 0, false, 2, 3⟩, cap := ⟨[(0, ⟨0x0A, 2⟩), (1, ⟨0x0B, 1⟩)], 1, 0x0B, 3⟩,
           rep := r, env := ⟨[], [], accepts, 0⟩ }

/-- The block with bytes received and bytes to come. -/
def receiving (received : List Byte) (coming : List LinkEvent) : State :=
  { base with frame := received, cmd := coming }

theorem receiving_ready (received : List Byte) (coming : List LinkEvent) : Ready (receiving received coming) :=
  ⟨rfl, rfl⟩

/-! ## Witnesses: power-on and the commands -/

theorem witness_InvariantAtPowerOn :
    CfgReset.zero.inRange = true ∧ (⟨1073741824, 17179869180, 0xFF, 0xFF, true, 0xFFFFFFFF⟩ : CfgReset).inRange = true ∧
    (⟨1073741825, 0, 0, 0, false, 0⟩ : CfgReset).inRange = false := by decide

/-- The quotients 0 and 1 meet at `d = 100000000` and `d = 99999999`; 2^32 is the largest divisor; the last state's
limit is reached exactly. -/
theorem witness_SetDividerSetsRateOrUnsetsIt :
    (Within base.params ((100000000 : Word).toNat + 1) ∧
      0 * ((100000000 : Word).toNat + 1) ≤ base.params.clockFrequency ∧
      base.params.clockFrequency < (0 + 1) * ((100000000 : Word).toNat + 1)) ∧
    (Within (limited 100000000).params ((99999999 : Word).toNat + 1) ∧
      1 * ((99999999 : Word).toNat + 1) ≤ (limited 100000000).params.clockFrequency ∧
      (limited 100000000).params.clockFrequency < (1 + 1) * ((99999999 : Word).toNat + 1)) ∧
    (Within (limited 4294967296).params ((0xFFFFFFFF : Word).toNat + 1) ∧
      0 * ((0xFFFFFFFF : Word).toNat + 1) ≤ (limited 4294967296).params.clockFrequency ∧
      (limited 4294967296).params.clockFrequency < (0 + 1) * ((0xFFFFFFFF : Word).toNat + 1)) :=
  ⟨⟨within_base _, by decide⟩, ⟨within_limited (by decide), by decide⟩, within_limited (by decide), by decide⟩

/-- A value in each range, at the ranges' ends; each within a limit that it reaches exactly. -/
theorem witness_DividerRangesAtDefaultClock :
    (∀ l, (limited l).params.clockFrequency = 100000000) ∧ base.params.clockFrequency = 100000000 ∧
    (Within (limited 1).params ((0 : Word).toNat + 1) ∧ (0 : Word).toNat ≤ 99) ∧
    (Within (limited 100).params ((99 : Word).toNat + 1) ∧ (99 : Word).toNat ≤ 99) ∧
    (Within (limited 101).params ((100 : Word).toNat + 1) ∧ (100 : Word).toNat = 100) ∧
    (Within (limited 100000000).params ((99999999 : Word).toNat + 1) ∧ (99999999 : Word).toNat = 99999999) ∧
    (Within base.params ((100000000 : Word).toNat + 1) ∧ 100000000 ≤ (100000000 : Word).toNat) :=
  ⟨fun _ => rfl, rfl, ⟨within_limited (by decide), by decide⟩, ⟨within_limited (by decide), by decide⟩,
    ⟨within_limited (by decide), rfl⟩, ⟨within_limited (by decide), rfl⟩, within_base _, by decide⟩

theorem witness_ZeroQuotientUnsetsRateAndArmFaults :
    (base.params.clockFrequency < (100000000 : Word).toNat + 1 ∧ Within base.params ((100000000 : Word).toNat + 1)) ∧
    ((limited 4294967296).params.clockFrequency < (0xFFFFFFFF : Word).toNat + 1 ∧
      Within (limited 4294967296).params ((0xFFFFFFFF : Word).toNat + 1)) :=
  ⟨⟨by decide, within_base _⟩, by decide, within_limited (by decide)⟩

/-- Without a limit every operand; with one, the largest products that meet it. -/
theorem witness_SetCaptureSizeStoresFourTimesBoth :
    (∀ a b : Half, Within base.params (a.toNat * 4) ∧ Within base.params (b.toNat * 4)) ∧
    (Within (limited 262140).params ((0xFFFF : Half).toNat * 4) ∧ Within (limited 262140).params ((1 : Half).toNat * 4)) :=
  ⟨fun _ _ => ⟨within_base _, within_base _⟩, within_limited (by decide), within_limited (by decide)⟩

theorem witness_SetFlagsAndDelayStoreTheirParameter :
    (∀ w : Word, Within base.params (w.toNat * 4)) ∧
    Within (limited 17179869180).params ((0xFFFFFFFF : Word).toNat * 4) :=
  ⟨fun _ => within_base _, within_limited (by decide)⟩

/-- Both sides of the clamp, each within a limit that the product reaches exactly. -/
theorem witness_SetReadCountClampsToVirtualCapacity :
    (Within base.params ((0 : Word).toNat * 4) ∧ (0 : Word).toNat ≤ 268435456) ∧
    (Within (limited 1073741824).params ((0x10000000 : Word).toNat * 4) ∧ (0x10000000 : Word).toNat ≤ 268435456) ∧
    (Within (limited 1073741828).params ((0x10000001 : Word).toNat * 4) ∧ 268435456 < (0x10000001 : Word).toNat) ∧
    (Within base.params ((0xFFFFFFFF : Word).toNat * 4) ∧ 268435456 < (0xFFFFFFFF : Word).toNat) :=
  ⟨⟨within_base _, by decide⟩, ⟨within_limited (by decide), by decide⟩, ⟨within_limited (by decide), by decide⟩,
    within_base _, by decide⟩

/-- For each clause the least value past the limit 7: the divisor 8, and the product 8; in the third clause the first
product, 4, is within it. -/
theorem witness_SettersPastLimitRaiseCounterLimit :
    (limited 7).params.counterLimit = some 7 ∧ 7 < (7 : Word).toNat + 1 ∧ 7 < (2 : Half).toNat * 4 ∧
    ((1 : Half).toNat * 4 ≤ 7 ∧ 7 < (2 : Half).toNat * 4) ∧ 7 < (2 : Word).toNat * 4 := by decide

theorem witness_SetTriggerConfigReadsBitsTwoAndThree :
    (0x0C000000 : Word).getLsbD 26 = true ∧ (0x08000000 : Word).getLsbD 26 = false ∧
    (0xF3000000 : Word).getLsbD 26 = false := by decide

theorem witness_OtherStagesSkipOrAliasStageZero :
    base.params.stageAlias = false ∧ aliased.params.stageAlias = true := by decide

theorem witness_ArmWithoutRateRaisesRateUndefined : base.cfg.rateValid = false := rfl

/-- A limit equal to the budget does not stop the arm step; the second state has no trigger. -/
theorem witness_ArmLatchesConfigurationAndStarts :
    (configured base).cfg.rateValid = true ∧ 2 * (configured base).cfg.sampleRate ≤ 1000000 ∧
    1000000 < (2 + 1) * (configured base).cfg.sampleRate ∧
    Within (configured base).params ((configured base).cfg.sampleCount * 2) ∧
    (configured (limited 8)).cfg.rateValid = true ∧
    Within (configured (limited 8)).params ((configured (limited 8)).cfg.sampleCount * 2) := by
  refine ⟨rfl, by decide, by decide, ?_, rfl, ?_⟩ <;> intro l h <;> cases h
  decide

theorem witness_ArmBudgetPastLimitRaisesCounterLimit :
    (configured (limited 7)).cfg.rateValid = true ∧ 2 * (configured (limited 7)).cfg.sampleRate ≤ 1000000 ∧
    1000000 < (2 + 1) * (configured (limited 7)).cfg.sampleRate ∧
    (configured (limited 7)).params.counterLimit = some 7 ∧ 7 < (configured (limited 7)).cfg.sampleCount * 2 := by
  decide

theorem witness_CommandsLeaveCaptureAndReportAlone :
    (∃ t, exec .arm (configured base) = .next t) ∧ (∃ t, exec .queryId base = .next t) ∧
    (∃ t, exec (.setFlags 1) base = .next t) := ⟨⟨_, rfl⟩, ⟨_, rfl⟩, ⟨_, rfl⟩⟩

/-! ## Witnesses: encoding and the framer -/

theorem witness_DecodeOfEncodeIsTheFrame :
    (Instr.setCaptureSize 0xFFFF 0x0001).wellFormed = true ∧ (Instr.unknown 0x85).wellFormed = true := by decide

theorem witness_EncodeOfDecodeIsTheBytes :
    decodeWith opcodeOf [0xC0, 0x01, 0xFF, 0x00, 0x00, 0x02] = .ok (.setTriggerMask0 0x0000FF01, [0x02]) ∧
    decodeWith opcodeOf [0x85] = .ok (.unknown 0x85, []) ∧
    decodeWith swappedMap.byte [0x01] = .ok (.reset, []) := ⟨rfl, rfl, rfl⟩

/-- The SUMP map is one; 0x85 is a byte outside it. -/
theorem witness_RoundTripForAnyOpcodeMap :
    (∀ o o', opcodeOf o = opcodeOf o' → o = o') ∧ (∀ b, Instr.unknown 0x85 = .unknown b → ∀ o, opcodeOf o ≠ b) := by
  refine ⟨opcodeOf_injective, ?_⟩
  intro b h o
  cases h
  cases o <;> decide

theorem witness_FirstByteTellsFrameLength :
    parameterized 0x85 = false ∧ parameterized 0x80 = true ∧ 4 ≤ ([0, 0, 0, 0] : List Byte).length ∧
    ([0, 0, 0] : List Byte).length < 4 ∧ ([] : List Byte).length < 4 := by decide

theorem witness_StepDispatchesTheCompletedFrame :
    (Ready (receiving [0x80, 0x63, 0x00, 0x00] [.byte 0x00]) ∧
      decodeWith (receiving [0x80, 0x63, 0x00, 0x00] [.byte 0x00]).params.opcodes.byte
        ((receiving [0x80, 0x63, 0x00, 0x00] [.byte 0x00]).frame ++ [0x00]) = .ok (.setDivider 0x63, [])) ∧
    (Ready (swapped [.byte 0x00]) ∧ decodeWith (swapped [.byte 0x00]).params.opcodes.byte
      ((swapped [.byte 0x00]).frame ++ [0x00]) = .ok (.arm, [])) :=
  ⟨⟨⟨rfl, rfl⟩, rfl⟩, ⟨rfl, rfl⟩, rfl⟩

/-- The opcode byte, the first parameter byte and the third, each equal to an opcode. -/
theorem witness_UnfinishedFrameKeepsEveryByte :
    (Ready (receiving [] [.byte 0xC0]) ∧ (receiving [] [.byte 0xC0]).frame = [] ∧
      parameterizedWith (receiving [] [.byte 0xC0]).params.opcodes.byte 0xC0 = true) ∧
    (Ready (receiving [0xC0] [.byte 0x01]) ∧ ∃ o ps, (receiving [0xC0] [.byte 0x01]).frame = o :: ps ∧
      parameterizedWith (receiving [0xC0] [.byte 0x01]).params.opcodes.byte o = true ∧ ps.length < 3) ∧
    (Ready (receiving [0xC0, 0x01, 0x01] [.byte 0x01]) ∧ ∃ o ps,
      (receiving [0xC0, 0x01, 0x01] [.byte 0x01]).frame = o :: ps ∧
      parameterizedWith (receiving [0xC0, 0x01, 0x01] [.byte 0x01]).params.opcodes.byte o = true ∧ ps.length < 3) :=
  ⟨⟨⟨rfl, rfl⟩, rfl, rfl⟩, ⟨⟨rfl, rfl⟩, _, _, rfl, rfl, by decide⟩, ⟨⟨rfl, rfl⟩, _, _, rfl, rfl, by decide⟩⟩

theorem witness_TimeoutLeavesTheFramerWhereItWas :
    Ready (receiving [0xC0, 0x01] [.timeout]) ∧ (receiving [0xC0, 0x01] [.timeout]).cmd = .timeout :: [] ∧
    Ready (receiving [0xC0] []) ∧ (receiving [0xC0] []).cmd = [] := ⟨⟨rfl, rfl⟩, rfl, ⟨rfl, rfl⟩, rfl⟩

theorem witness_UnknownByteIsAOneByteFrame :
    Ready (receiving [] [.byte 0x85]) ∧ (receiving [] [.byte 0x85]).frame = [] ∧
    (∀ o, (receiving [] [.byte 0x85]).params.opcodes.byte o ≠ 0x85) ∧
    (∀ o, (receiving [] [.byte 0x03]).params.opcodes.byte o ≠ 0x03) ∧
    (∀ o, (swapped [.byte 0x02]).params.opcodes.byte o ≠ 0x02) := by
  refine ⟨⟨rfl, rfl⟩, rfl, ?_, ?_, ?_⟩ <;> intro o <;> cases o <;> decide

/-- Under the SUMP map, a five-byte frame with another behind it; under the swapped one, an ARM and an unknown byte. -/
theorem witness_SentFrameIsDispatchedByItsLastByte :
    (Ready (receiving [] ((encode (.setDivider 0x63)).map .byte ++ [.byte 0x01])) ∧
      (receiving [] ((encode (.setDivider 0x63)).map .byte ++ [.byte 0x01])).params.opcodes.Distinct ∧
      (Instr.setDivider 0x63).wellFormedWith
        (receiving [] ((encode (.setDivider 0x63)).map .byte ++ [.byte 0x01])).params.opcodes.byte = true) ∧
    (Ready (swapped ((encodeWith swappedMap.byte .arm).map .byte ++ [])) ∧ swappedMap.Distinct ∧
      Instr.arm.wellFormedWith swappedMap.byte = true ∧ (Instr.unknown 0x02).wellFormedWith swappedMap.byte = true) :=
  ⟨⟨⟨rfl, rfl⟩, sump_distinct, rfl⟩, ⟨rfl, rfl⟩, swappedMap_distinct, rfl, rfl⟩

theorem witness_FiveResetBytesRealignTheFramer :
    (Ready (receiving [] (List.replicate 5 (.byte base.params.opcodes.reset))) ∧
      FramerOk base.params.opcodes []) ∧
    (Ready (receiving [0xC0] (List.replicate 5 (.byte base.params.opcodes.reset))) ∧
      FramerOk base.params.opcodes [0xC0]) ∧
    (Ready (receiving [0x84, 0x10, 0x00, 0x01] (List.replicate 5 (.byte base.params.opcodes.reset))) ∧
      FramerOk base.params.opcodes [0x84, 0x10, 0x00, 0x01]) := by
  refine ⟨⟨⟨rfl, rfl⟩, by decide, ?_⟩, ⟨⟨rfl, rfl⟩, by decide, ?_⟩, ⟨⟨rfl, rfl⟩, by decide, ?_⟩⟩ <;> intro b h <;>
    cases h <;> decide

/-! ## Witnesses: the trigger -/

theorem witness_MatchCornerCases :
    (0x80 : Byte) ≠ 0 ∧ (0xF5 : Byte) &&& 0x0F = 0x05 &&& 0x0F ∧ (0x35 : Byte) &&& 0x0F = 0xC5 &&& 0x0F := by decide

/-- A stop, a matching poll, and a poll that fails (95_test_vectors.md W5). -/
theorem witness_TriggerWaitStep :
    ((waiting true [0x03]).seq = .trigWait ∧ (waiting true [0x03]).fault = .none ∧
      (waiting true [0x03]).env.stops = true :: [true, true] ∧ (waiting true [0x03]).env.polls = 0x03 :: []) ∧
    ((waiting false [0x03]).env.stops = false :: [true, true] ∧ (waiting false [0x03]).env.polls = 0x03 :: [] ∧
      (0x03 &&& (waiting false [0x03]).ts.mask &&& (waiting false [0x03]).ts.value ≠ 0 ∨
        ~~~0x03 &&& (waiting false [0x03]).ts.mask &&& ~~~(waiting false [0x03]).ts.value ≠ 0)) ∧
    ((waiting false [0x00]).env.polls = 0x00 :: [] ∧
      ¬ (0x00 &&& (waiting false [0x00]).ts.mask &&& (waiting false [0x00]).ts.value ≠ 0 ∨
        ~~~0x00 &&& (waiting false [0x00]).ts.mask &&& ~~~(waiting false [0x00]).ts.value ≠ 0)) := by decide

theorem witness_TriggerWaitHasNoTimeout :
    (waiting false [0x00, 0xFE]).seq = .trigWait ∧ (waiting false [0x00, 0xFE]).fault = .none ∧
    (∀ x ∈ ([0x00] : List Byte), triggerMatch (waiting false [0x00, 0xFE]).ts.mask
      (waiting false [0x00, 0xFE]).ts.value x = false) ∧
    (waiting false [0x00, 0xFE]).env.polls = [0x00] ++ [0xFE] ∧
    (waiting false [0x00, 0xFE]).env.stops = List.replicate ([0x00] : List Byte).length false ++ [true, true] := by
  decide

/-! ## Witnesses: the capture -/

/-- `first` with `COUNTER_LIMIT = l`. -/
def firstLimited (l : Nat) : State := { first [0x5A] [] with params := (limited l).params }

theorem witness_FirstSampleIsRunZero :
    ((first [0x5A] []).seq = .capFirst ∧ (first [0x5A] []).fault = .none ∧ (first [0x5A] []).cap.runs.wf = true ∧
      (first [0x5A] []).env.polls = 0x5A :: []) ∧ Within (first [0x5A] []).params 1 ∧
    ((firstLimited 1).seq = .capFirst ∧ (firstLimited 1).fault = .none ∧ (firstLimited 1).cap.runs.wf = true ∧
      (firstLimited 1).env.polls = 0x5A :: []) ∧ Within (firstLimited 1).params 1 :=
  ⟨by decide, within_base 1, by decide, within_limited (Nat.le_refl 1)⟩

/-- A stop, a budget reached exactly, and the last slot. -/
theorem witness_AnyStopConditionStartsTheReport :
    ((looping base [] true).seq = .capLoop ∧ (looping base [] true).fault = .none ∧
      (looping base [] true).cap.cursor < 3500 ∧ (looping base [] true).env.stops = true :: []) ∧
    ((loopingAt base 0 3 3 3 0x00 false).seq = .capLoop ∧ (loopingAt base 0 3 3 3 0x00 false).env.stops = false :: [] ∧
      (loopingAt base 0 3 3 3 0x00 false).ts.capBudget ≤ (loopingAt base 0 3 3 3 0x00 false).cap.taken) ∧
    ((loopingAt base 3499 1 3500 4000 0x00 false).seq = .capLoop ∧
      (loopingAt base 3499 1 3500 4000 0x00 false).cap.cursor < 3500 ∧
      (loopingAt base 3499 1 3500 4000 0x00 false).cap.cursor = 3499) := by decide

/-- The last boundary at which a poll is made, with a sample equal to `prev` and one that differs, the limit exactly
reached. -/
theorem witness_PollCountsOrOpensARun :
    (∀ x, (loopingAt (limited 4) 3498 3 3 4 x false).seq = .capLoop ∧
      (loopingAt (limited 4) 3498 3 3 4 x false).fault = .none ∧
      (loopingAt (limited 4) 3498 3 3 4 x false).cap.runs.wf = true ∧
      (loopingAt (limited 4) 3498 3 3 4 x false).cap.cursor < 3499 ∧
      (loopingAt (limited 4) 3498 3 3 4 x false).cap.taken < (loopingAt (limited 4) 3498 3 3 4 x false).ts.capBudget ∧
      (loopingAt (limited 4) 3498 3 3 4 x false).env.stops = false :: [] ∧
      (loopingAt (limited 4) 3498 3 3 4 x false).env.polls = x :: [] ∧
      Within (loopingAt (limited 4) 3498 3 3 4 x false).params
        ((loopingAt (limited 4) 3498 3 3 4 x false).cap.taken + 1) ∧
      Within (loopingAt (limited 4) 3498 3 3 4 x false).params
        (((loopingAt (limited 4) 3498 3 3 4 x false).cap.runs.read 3498).count + 1)) ∧
    0x0B = (loopingAt (limited 4) 3498 3 3 4 0x0B false).cap.prev ∧
    0x0C ≠ (loopingAt (limited 4) 3498 3 3 4 0x0C false).cap.prev := by
  refine ⟨fun x => ⟨rfl, rfl, rfl, by show 3498 < 3499; decide, by show 3 < 4; decide, rfl, rfl, ?_, ?_⟩, rfl,
    by decide⟩ <;> intro l h <;> cases h <;> exact Nat.le_refl 4

/-- One state for each of the six clauses. -/
theorem witness_CounterPastLimitRaisesInsteadOfWriting :
    ((loopingAt (limited 3) 0 3 3 8 0x0B false).fault = .none ∧
      (loopingAt (limited 3) 0 3 3 8 0x0B false).params.counterLimit = some 3 ∧
      (loopingAt (limited 3) 0 3 3 8 0x0B false).cap.taken < (loopingAt (limited 3) 0 3 3 8 0x0B false).ts.capBudget ∧
      0x0B = (loopingAt (limited 3) 0 3 3 8 0x0B false).cap.prev ∧
      3 < ((loopingAt (limited 3) 0 3 3 8 0x0B false).cap.runs.read 0).count + 1) ∧
    (0x0B = (loopingAt (limited 4) 1 3 4 8 0x0B false).cap.prev ∧
      ((loopingAt (limited 4) 1 3 4 8 0x0B false).cap.runs.read 1).count + 1 ≤ 4 ∧
      4 < (loopingAt (limited 4) 1 3 4 8 0x0B false).cap.taken + 1) ∧
    (0x0C ≠ (loopingAt (limited 3) 0 3 3 8 0x0C false).cap.prev ∧ 1 ≤ 3 ∧
      3 < (loopingAt (limited 3) 0 3 3 8 0x0C false).cap.taken + 1 ∧
      (loopingAt (limited 3) 0 3 3 8 0x0C false).cap.runs.wf = true) ∧
    (0x0C ≠ (loopingAt (limited 0) 0 3 3 8 0x0C false).cap.prev ∧
      (loopingAt (limited 0) 0 3 3 8 0x0C false).params.counterLimit = some 0 ∧
      (loopingAt (limited 0) 0 3 3 8 0x0C false).cap.runs.wf = true) ∧
    ((reporting (limited 1) ⟨0, 2, 1⟩ [true]).seq = .report ∧ 0 < (reporting (limited 1) ⟨0, 2, 1⟩ [true]).rep.k ∧
      1 < (reporting (limited 1) ⟨0, 2, 1⟩ [true]).rep.c + 1) ∧
    ((firstLimited 0).fault = .none ∧ (firstLimited 0).params.counterLimit = some 0 ∧ (firstLimited 0).seq = .capFirst ∧
      (firstLimited 0).env.polls = 0x5A :: []) := by decide

theorem witness_CaptureRecordsExactlyThePolls :
    (first [0x0A, 0x0A, 0x0B] [false, false]).seq = .capFirst ∧
    (first [0x0A, 0x0A, 0x0B] [false, false]).fault = .none ∧
    (first [0x0A, 0x0A, 0x0B] [false, false]).cap.runs.wf = true ∧
    (first [0x0A, 0x0A, 0x0B] [false, false]).params.counterLimit = none ∧
    ([0x0A, 0x0B] : List Byte).length + 1 ≤ max 1 (first [0x0A, 0x0A, 0x0B] [false, false]).ts.capBudget ∧
    runCount ([0x0A, 0x0A, 0x0B] : List Byte).dropLast ≤ 3499 ∧
    (first [0x0A, 0x0A, 0x0B] [false, false]).env.polls = ([0x0A, 0x0A, 0x0B]) ++ [] ∧
    (first [0x0A, 0x0A, 0x0B] [false, false]).env.stops = List.replicate ([0x0A, 0x0B] : List Byte).length false ++ [] := by
  decide

/-- 95_test_vectors.md W1: the budget reached exactly, and a budget of zero with its one sample. -/
theorem witness_EqualSamplesAreOneRun :
    (first (List.replicate 8 0x3C) (List.replicate 7 false)).seq = .capFirst ∧
    (first (List.replicate 8 0x3C) (List.replicate 7 false)).cap.runs.wf = true ∧
    (first (List.replicate 8 0x3C) (List.replicate 7 false)).params.counterLimit = none ∧
    7 + 1 ≤ max 1 (first (List.replicate 8 0x3C) (List.replicate 7 false)).ts.capBudget ∧
    (first (List.replicate 8 0x3C) (List.replicate 7 false)).env.polls = List.replicate (7 + 1) 0x3C ++ [] ∧
    (first (List.replicate 8 0x3C) (List.replicate 7 false)).env.stops = List.replicate 7 false ++ [] ∧
    0 + 1 ≤ max 1 0 := by decide

/-- Samples that change at every poll. -/
def alternating : Nat → Byte → List Byte
  | 0, _ => []
  | n + 1, b => b :: alternating n (~~~b)

theorem alternating_length : ∀ (n : Nat) (b : Byte), (alternating n b).length = n
  | 0, _ => rfl
  | n + 1, b => by simp [alternating, alternating_length n]

theorem ne_not_self : ∀ b : Byte, b ≠ ~~~b := by decide +kernel

theorem alternating_runCount : ∀ (n : Nat) (b : Byte), runCount (alternating n b) = n
  | 0, _ => rfl
  | 1, _ => rfl
  | n + 2, b => by
    have h := alternating_runCount (n + 1) (~~~b)
    simp only [alternating, runCount, if_neg (ne_not_self b)] at h ⊢
    omega

/-- A block whose port changes at every poll, with a budget past the buffer's capacity. -/
def changing : State :=
  { base with seq := .capFirst, ts := ⟨0, 0, false, 1, 4000⟩,
              env := ⟨alternating 3500 0x00 ++ [0x55], List.replicate 3500 false ++ [], [], 0⟩ }

theorem witness_CapacityStopsTheCaptureSilently :
    changing.seq = .capFirst ∧ changing.fault = .none ∧ changing.cap.runs.wf = true ∧
    changing.params.counterLimit = none ∧ 3500 ≤ changing.ts.capBudget ∧ (alternating 3500 0x00).length = 3500 ∧
    runCount (alternating 3500 0x00) = 3500 ∧ changing.env.polls = alternating 3500 0x00 ++ [0x55] ∧
    changing.env.stops = List.replicate 3500 false ++ [] :=
  ⟨rfl, rfl, rfl, rfl, by show 3500 ≤ 4000; decide, alternating_length _ _, alternating_runCount _ _, rfl, rfl⟩

theorem witness_StopInTheWaitStillTakesOneSample :
    ((waiting true [0x00]).seq = .trigWait ∧ (waiting true [0x00]).fault = .none ∧
      (waiting true [0x00]).cap.runs.wf = true ∧ (waiting true [0x00]).env.stops = true :: true :: [true] ∧
      (waiting true [0x00]).env.polls = 0x00 :: []) ∧ Within (waiting true [0x00]).params 1 :=
  ⟨by decide, within_base 1⟩

/-! ## Witnesses: the report -/

/-- A walk, an emitted byte, the next older run, and the end. -/
theorem witness_ReportStep :
    ((reporting base ⟨1, 1, 0⟩ []).seq = .report ∧ (reporting base ⟨1, 1, 0⟩ []).fault = .none ∧
      (reporting base ⟨1, 1, 0⟩ []).rep.j < 3500 ∧ 0 < (reporting base ⟨1, 1, 0⟩ []).rep.k ∧
      (reporting base ⟨1, 1, 0⟩ []).rep.c + 1 ≠ (reporting base ⟨1, 1, 0⟩ []).ts.capRate) ∧
    (0 < (reporting base ⟨0, 2, 1⟩ [true]).rep.k ∧
      (reporting base ⟨0, 2, 1⟩ [true]).rep.c + 1 = (reporting base ⟨0, 2, 1⟩ [true]).ts.capRate ∧
      (reporting base ⟨0, 2, 1⟩ [true]).env.accepts = true :: []) ∧
    ((reporting base ⟨1, 0, 1⟩ []).rep.k = 0 ∧ 0 < (reporting base ⟨1, 0, 1⟩ []).rep.j) ∧
    ((reporting base ⟨0, 0, 1⟩ []).rep.k = 0 ∧ (reporting base ⟨0, 0, 1⟩ []).rep.j = 0) := by decide

/-- The limit of `ReportStep` and of the two statements after it, reached exactly. -/
theorem witness_ReportStep_limit :
    Within (reporting (limited 2) ⟨0, 2, 1⟩ [true]).params ((reporting (limited 2) ⟨0, 2, 1⟩ [true]).rep.c + 1) ∧
    Within (reporting (limited 2) ⟨0, 2, 1⟩ [true]).params (reporting (limited 2) ⟨0, 2, 1⟩ [true]).ts.capRate := by
  constructor <;> intro l h <;> cases h <;> decide

theorem witness_UntakenByteStallsTheReport :
    (reporting (limited 2) ⟨0, 2, 1⟩ [false, false, true]).seq = .report ∧
    (reporting (limited 2) ⟨0, 2, 1⟩ [false, false, true]).fault = .none ∧
    (reporting (limited 2) ⟨0, 2, 1⟩ [false, false, true]).rep.j < 3500 ∧
    0 < (reporting (limited 2) ⟨0, 2, 1⟩ [false, false, true]).rep.k ∧
    (reporting (limited 2) ⟨0, 2, 1⟩ [false, false, true]).rep.c + 1 =
      (reporting (limited 2) ⟨0, 2, 1⟩ [false, false, true]).ts.capRate ∧
    (reporting (limited 2) ⟨0, 2, 1⟩ [false, false, true]).env.accepts = List.replicate 2 false ++ [true] := by decide

theorem witness_ReportEmitsEveryRateThSample :
    (reporting (limited 2) ⟨1, 1, 0⟩ [true]).seq = .report ∧ (reporting (limited 2) ⟨1, 1, 0⟩ [true]).fault = .none ∧
    (reporting (limited 2) ⟨1, 1, 0⟩ [true]).cap.cursor < 3500 ∧
    (reporting (limited 2) ⟨1, 1, 0⟩ [true]).rep =
      { j := (reporting (limited 2) ⟨1, 1, 0⟩ [true]).cap.cursor,
        k := ((reporting (limited 2) ⟨1, 1, 0⟩ [true]).cap.runs.read
          (reporting (limited 2) ⟨1, 1, 0⟩ [true]).cap.cursor).count, c := 0 } ∧
    1 ≤ (reporting (limited 2) ⟨1, 1, 0⟩ [true]).ts.capRate ∧
    (reporting (limited 2) ⟨1, 1, 0⟩ [true]).env.accepts =
      List.replicate (countUpTo (reporting (limited 2) ⟨1, 1, 0⟩ [true]).cap.runs
        (reporting (limited 2) ⟨1, 1, 0⟩ [true]).cap.cursor /
          (reporting (limited 2) ⟨1, 1, 0⟩ [true]).ts.capRate) true ++ [] := by decide

theorem witness_ReportWritesNoBufferNoConfiguration :
    (reporting base ⟨0, 2, 1⟩ [true]).seq = .report ∧ ∃ t, step (reporting base ⟨0, 2, 1⟩ [true]) = .next t :=
  ⟨rfl, _, rfl⟩

/-- An ARM byte with 2 samples at 500 kHz: four polls, two bytes. -/
def armByte : State :=
  { base with cfg := { base.cfg with sampleCount := 2, sampleRate := 500000, rateValid := true },
              cmd := [.byte 0x01, .byte 0x02],
              env := ⟨[0x05, 0x05, 0x07, 0x07, 0x09], [false, false, false, false, true], [true, true, false], 0⟩ }

theorem witness_ArmCapturesAndReportsTheRequestedSamples :
    Ready armByte ∧ armByte.frame = [] ∧ armByte.params.opcodes.Distinct ∧
    armByte.cmd = .byte armByte.params.opcodes.arm :: [.byte 0x02] ∧ armByte.cap.runs.wf = true ∧
    armByte.params.counterLimit = none ∧ armByte.cfg.rateValid = true ∧ 1 ≤ 2 ∧
    2 * armByte.cfg.sampleRate ≤ 1000000 ∧ 1000000 < (2 + 1) * armByte.cfg.sampleRate ∧
    (armByte.cfg.triggerEnabled = false ∨ armByte.cfg.triggerMask = 0) ∧
    ([0x05, 0x05, 0x07, 0x07] : List Byte).length = max 1 (armByte.cfg.sampleCount * 2) ∧
    runCount [0x05, 0x05, 0x07, 0x07] ≤ 3499 ∧ armByte.env.polls = [0x05, 0x05, 0x07, 0x07] ++ [0x09] ∧
    armByte.env.stops = List.replicate ([0x05, 0x05, 0x07, 0x07] : List Byte).length false ++ [true] ∧
    armByte.env.accepts = List.replicate (([0x05, 0x05, 0x07, 0x07] : List Byte).length / 2) true ++ [false] :=
  ⟨⟨rfl, rfl⟩, rfl, sump_distinct, by decide⟩

/-! ## Witnesses: the whole machine -/

/-- A step from each of the five sequencer states, and the fault of a limit of zero in CAP_FIRST. -/
theorem witness_SequencerTransitions :
    (base.seq = .idle ∧ ∃ t, step base = .next t) ∧
    ((waiting false [0x00]).seq = .trigWait ∧ ∃ t, step (waiting false [0x00]) = .next t) ∧
    ((first [0x5A] []).seq = .capFirst ∧ ∃ t, step (first [0x5A] []) = .next t) ∧
    ((looping base [0x0C] false).seq = .capLoop ∧ ∃ t, step (looping base [0x0C] false) = .next t) ∧
    ((reporting base ⟨0, 0, 1⟩ []).seq = .report ∧ ∃ t, step (reporting base ⟨0, 0, 1⟩ []) = .next t) ∧
    ((firstLimited 0).seq = .capFirst ∧ ∃ t, step (firstLimited 0) = .next t ∧ t.fault ≠ .none) :=
  ⟨⟨rfl, _, rfl⟩, ⟨rfl, _, rfl⟩, ⟨rfl, _, rfl⟩, ⟨rfl, _, rfl⟩, ⟨rfl, _, rfl⟩, rfl, _, rfl, by decide⟩

theorem witness_BusyBlockTakesNoByteAndKeepsConfiguration :
    (looping base [0x0C] false).busy = true ∧ ∃ t, step (looping base [0x0C] false) = .next t := ⟨rfl, _, rfl⟩

/-- Slot 0 in CAP_FIRST and slot `cursor` in CAP_LOOP do change. -/
theorem witness_RunSlotsChangeOnlyInACapture :
    (∃ t, step (first [0x5A] []) = .next t ∧ t.cap.runs.read 0 ≠ (first [0x5A] []).cap.runs.read 0) ∧
    (∃ t, step (looping base [0x0C] false) = .next t ∧
      t.cap.runs.read 2 ≠ (looping base [0x0C] false).cap.runs.read 2) :=
  ⟨⟨_, rfl, by decide⟩, ⟨_, rfl, by decide⟩⟩

/-- A step from each of the five sequencer states, against a buffer `m` that differs from the block's wherever the
statement lets it: in every slot, but for the current run in CAP_LOOP and the runs up to `rep_j` in REPORT. The
steps in CAP_FIRST and in CAP_LOOP change a run. -/
theorem witness_StepsReadOnlyTheCurrentRunOrTheReportedRuns :
    (base.cap.runs.wf = true ∧ Memory.wf [(0, ⟨0x77, 9⟩)] = true ∧ ∃ t, step base = .next t) ∧
    ((waiting false [0x00]).cap.runs.wf = true ∧ ∃ t, step (waiting false [0x00]) = .next t) ∧
    ((first [0x5A] []).cap.runs.wf = true ∧ ∃ t, step (first [0x5A] []) = .next t ∧
      t.cap.runs.read 0 ≠ (first [0x5A] []).cap.runs.read 0) ∧
    ((looping base [0x0C] false).cap.runs.wf = true ∧ Memory.wf [(0, ⟨0x77, 9⟩), (1, ⟨0x0B, 1⟩)] = true ∧
      Memory.read [(0, ⟨0x77, 9⟩), (1, ⟨0x0B, 1⟩)] (looping base [0x0C] false).cap.cursor =
        (looping base [0x0C] false).cap.runs.read (looping base [0x0C] false).cap.cursor ∧
      ∃ t, step (looping base [0x0C] false) = .next t ∧
        t.cap.runs.read 2 ≠ (looping base [0x0C] false).cap.runs.read 2) ∧
    ((reporting base ⟨0, 2, 1⟩ [true]).cap.runs.wf = true ∧ Memory.wf [(0, ⟨0x0A, 2⟩), (1, ⟨0x77, 9⟩)] = true ∧
      (∀ j, j ≤ (reporting base ⟨0, 2, 1⟩ [true]).rep.j → Memory.read [(0, ⟨0x0A, 2⟩), (1, ⟨0x77, 9⟩)] j =
        (reporting base ⟨0, 2, 1⟩ [true]).cap.runs.read j) ∧
      ∃ t, step (reporting base ⟨0, 2, 1⟩ [true]) = .next t) :=
  ⟨⟨rfl, rfl, _, rfl⟩, ⟨rfl, _, rfl⟩, ⟨rfl, _, rfl, by decide⟩, ⟨rfl, rfl, rfl, _, rfl, by decide⟩,
    ⟨rfl, rfl, fun j h => by cases h; rfl, _, rfl⟩⟩

theorem witness_StopIsSampledAtBoundariesOnly :
    (∃ t, step (waiting false [0x00]) = .next t ∧ (waiting false [0x00]).seq = .trigWait) ∧
    (∃ t, step (looping base [0x0C] false) = .next t ∧ (looping base [0x0C] false).seq = .capLoop) ∧
    (∃ t, step (first [0x5A] [true]) = .next t ∧ (first [0x5A] [true]).seq = .capFirst) :=
  ⟨⟨_, rfl, rfl⟩, ⟨_, rfl, rfl⟩, ⟨_, rfl, rfl⟩⟩

theorem witness_OutputOnlyGrowsAndParametersStay :
    (∃ t, step (reporting base ⟨0, 2, 1⟩ [true]) = .next t ∧ (reporting base ⟨0, 2, 1⟩ [true]).seq ≠ .idle) ∧
    (∃ t, step (waiting false [0x00]) = .next t ∧ (waiting false [0x00]).seq ≠ .report) :=
  ⟨⟨_, rfl, by decide⟩, ⟨_, rfl, by decide⟩⟩

theorem witness_FlagsAndDelayHaveNoEffect :
    (∃ t, step (receiving [] [.byte 0x01]) = .next t) ∧ (∃ t, step (looping base [0x0C] false) = .next t) :=
  ⟨⟨_, rfl⟩, ⟨_, rfl⟩⟩

/-- Nothing is listed: the first sample is a free value. -/
theorem witness_UnlistedAnswersActAsListedOnes :
    (first [] []).env.polls = [] ∧ ∃ t, step (first [] []) = .next t := ⟨rfl, _, rfl⟩

theorem witness_FaultedBlockTakesNoStep :
    (base.raiseFault .rateUndefined).fault = .rateUndefined ∧
    (base.raiseFault (.counterLimit .repC)).fault = .counterLimit .repC := ⟨rfl, rfl⟩

/-- A report in progress, one byte short of its end: the block meets the invariant in the middle of a command, not
only at power-on. -/
theorem reporting_inv : BlockInv (reporting base ⟨0, 2, 1⟩ [true]) where
  memory := rfl
  config := ⟨Nat.zero_le _, Nat.zero_le _, by decide, by decide⟩
  framer := ⟨Nat.zero_le _, fun b h => by cases h⟩
  latches := fun _ => ⟨by decide, by decide, by decide⟩
  no_frame := fun _ => rfl
  waiting := fun h => by cases h
  capture := fun _ => {
    cursor_lt := by decide
    count_pos := by decide
    adjacent_ne := by decide
    last_value := rfl
    sum_eq := rfl
    taken_le := by decide
    last_slot := by decide }
  report := fun _ => ⟨by decide, by decide, by decide⟩

theorem witness_UnfaultedBlockAlwaysHasANextState :
    BlockInv (reporting base ⟨0, 2, 1⟩ [true]) ∧ (reporting base ⟨0, 2, 1⟩ [true]).fault = .none :=
  ⟨reporting_inv, rfl⟩

theorem witness_EveryStepKeepsTheInvariant :
    BlockInv (reporting base ⟨0, 2, 1⟩ [true]) ∧ ∃ t, step (reporting base ⟨0, 2, 1⟩ [true]) = .next t :=
  ⟨reporting_inv, _, rfl⟩

theorem witness_PlacedWordIsDispatchedNext :
    (base.params.opcodes = .sump ∧ decodeTableWord 40 0x0000006380 = some (.setDivider 0x63) ∧
      decodeTableWord 8 0x01 = some .arm ∧ decodeTableWord 8 0x85 = some (.unknown 0x85)) ∧
    ∃ rest, decodeWith (swapped []).params.opcodes.byte (tableBytes 8 0x00) = .ok (.arm, rest) :=
  ⟨⟨rfl, rfl, rfl, rfl⟩, _, rfl⟩

end Sys2Proof.Tests
end

section
/-! PROOFS. O53: nothing reads `flags` and `sample_delay` (10_state.md R25, R30).

A step outside IDLE reads no configuration register at all, so it commutes with any change of the configuration. In IDLE
the framer reads none either, and a dispatched command answers, from a configuration that differs in the two registers
alone, a configuration that differs in them alone. -/

namespace Sys2Proof.Machine

/-- The outcome of a step with `g` applied to its next state; a fault or a refusal stays as it is. -/
def onNext (g : State → State) : Result → Result
  | .next t => .next (g t)
  | .fault r => .fault r
  | .refused r => .refused r

@[simp] theorem onNext_next (g : State → State) (t : State) : onNext g (.next t) = .next (g t) := rfl
@[simp] theorem onNext_fault (g : State → State) (r : Fault) : onNext g (.fault r) = .fault r := rfl
@[simp] theorem onNext_refused (g : State → State) (r : Refusal) : onNext g (.refused r) = .refused r := rfl

/-! ## Steps that read no configuration register -/

section ReadsNoConfiguration

variable (s : State) (c : CaptureConfig)

@[simp] theorem State.withCfg_withCfg (c' : CaptureConfig) : (s.withCfg c).withCfg c' = s.withCfg c' := rfl

theorem portRead_withCfg : portRead (s.withCfg c) = ((portRead s).1, (portRead s).2.withCfg c) := by
  cases h : s.env.polls <;> simp [portRead, h] <;> rfl

theorem stopSampled_withCfg : stopSampled (s.withCfg c) = ((stopSampled s).1, (stopSampled s).2.withCfg c) := by
  cases h : s.env.stops <;> simp [stopSampled, h] <;> rfl

theorem hostTakes_withCfg : hostTakes (s.withCfg c) = ((hostTakes s).1, (hostTakes s).2.withCfg c) := by
  cases h : s.env.accepts <;> simp [hostTakes, h] <;> rfl

theorem emit_withCfg (b : Byte) : emit b (s.withCfg c) = ((emit b s).1, (emit b s).2.withCfg c) := by
  simp only [emit, hostTakes_withCfg]
  cases (hostTakes s).1 <;> rfl

/-- A counter passes the limit under both configurations or under neither. -/
theorem underLimit_withCfg_cases (k : Counter) (n : Nat) (r' r : Result) :
    (underLimit k n (s.withCfg c) r' = .next ((s.raiseFault (.counterLimit k)).withCfg c) ∧
      underLimit k n s r = .next (s.raiseFault (.counterLimit k))) ∨
    (underLimit k n (s.withCfg c) r' = r' ∧ underLimit k n s r = r) := by
  cases h : overLimit s.params.counterLimit n
  · right; simp [underLimit, h]
  · left; simp [underLimit, h]; rfl

theorem underLimit_withCfg (k : Counter) (n : Nat) (r : Result) :
    underLimit k n (s.withCfg c) (onNext (·.withCfg c) r) = onNext (·.withCfg c) (underLimit k n s r) := by
  rcases underLimit_withCfg_cases s c k n (onNext (·.withCfg c) r) r with ⟨h', h⟩ | ⟨h', h⟩
  · rw [h', h, onNext_next]
  · rw [h', h]

theorem trigWaitStep_withCfg : trigWaitStep (s.withCfg c) = onNext (·.withCfg c) (trigWaitStep s) := by
  simp only [trigWaitStep, stopSampled_withCfg, portRead_withCfg, State.withCfg_ts]
  split
  · rfl
  · split <;> rfl

theorem rleFirst_withCfg (x : Byte) : rleFirst x (s.withCfg c) = onNext (·.withCfg c) (rleFirst x s) := by
  simp only [rleFirst, State.withCfg_cap]
  cases bufWrite s.cap.runs 0 ⟨x, 1⟩ <;> rfl

theorem capFirstStep_withCfg : capFirstStep (s.withCfg c) = onNext (·.withCfg c) (capFirstStep s) := by
  simp only [capFirstStep, portRead_withCfg, ← underLimit_withCfg, ← rleFirst_withCfg]
  rfl

theorem rleUpdate_withCfg (x : Byte) : rleUpdate x (s.withCfg c) = onNext (·.withCfg c) (rleUpdate x s) := by
  simp only [rleUpdate, State.withCfg_cap]
  cases openRun x s.cap with
  | none => rfl
  | some cap =>
    simp only
    cases bufRead cap.runs cap.cursor with
    | none => rfl
    | some r =>
      simp only [← underLimit_withCfg]
      cases countSample x r cap <;> rfl

theorem reportInit_withCfg : reportInit (s.withCfg c) = onNext (·.withCfg c) (reportInit s) := by
  simp only [reportInit, State.withCfg_cap]
  cases bufRead s.cap.runs s.cap.cursor <;> rfl

theorem capLoopStep_withCfg : capLoopStep (s.withCfg c) = onNext (·.withCfg c) (capLoopStep s) := by
  simp only [capLoopStep, pollStep, stopSampled_withCfg, portRead_withCfg, State.withCfg_ts, State.withCfg_cap]
  split
  · exact reportInit_withCfg _ c
  · exact rleUpdate_withCfg _ c _

theorem emitSample_withCfg : emitSample (s.withCfg c) = onNext (·.withCfg c) (emitSample s) := by
  simp only [emitSample, State.withCfg_cap, State.withCfg_rep]
  cases bufRead s.cap.runs s.rep.j with
  | none => rfl
  | some r =>
    simp only [emit_withCfg]
    split <;> rfl

theorem walkSample_withCfg : walkSample (s.withCfg c) = onNext (·.withCfg c) (walkSample s) := by
  simp only [walkSample, ← underLimit_withCfg, emitSample_withCfg, State.withCfg_rep, State.withCfg_ts]
  split <;> rfl

theorem nextRun_withCfg : nextRun (s.withCfg c) = onNext (·.withCfg c) (nextRun s) := by
  simp only [nextRun, State.withCfg_cap, State.withCfg_rep]
  cases bufRead s.cap.runs (s.rep.j - 1) <;> rfl

theorem reportStep_withCfg : reportStep (s.withCfg c) = onNext (·.withCfg c) (reportStep s) := by
  simp only [reportStep, State.withCfg_rep, walkSample_withCfg, nextRun_withCfg]
  split
  · rfl
  · split <;> rfl

theorem takeByte_withCfg (b : Byte) : takeByte b (s.withCfg c) = ((takeByte b s).1.withCfg c, (takeByte b s).2) := by
  simp only [takeByte, State.withCfg_params, State.withCfg_frame]
  cases decodeWith s.params.opcodes.byte (s.frame ++ [b]) <;> rfl

theorem fetch_withCfg : fetch (s.withCfg c) = ((fetch s).1.withCfg c, (fetch s).2) := by
  simp only [fetch, State.withCfg_cmd]
  split
  · rfl
  · rfl
  · exact takeByte_withCfg (s.withCmd _) c _

/-- A byte read keeps the configuration. -/
theorem fetch_cfg : (fetch s).1.cfg = s.cfg :=
  congrArg (·.1.cfg) (fetch_withCfg s s.cfg)

/-- A step outside IDLE reads no configuration register. -/
theorem step_withCfg_of_busy (hs : s.seq ≠ .idle) : step (s.withCfg c) = onNext (·.withCfg c) (step s) := by
  simp only [step, State.withCfg_fault, State.withCfg_seq]
  cases s.fault with
  | rateUndefined => rfl
  | counterLimit k => rfl
  | none =>
    cases hq : s.seq with
    | idle => exact absurd hq hs
    | trigWait => exact trigWaitStep_withCfg s c
    | capFirst => exact capFirstStep_withCfg s c
    | capLoop => exact capLoopStep_withCfg s c
    | report => exact reportStep_withCfg s c

end ReadsNoConfiguration

/-- A step outside IDLE keeps the configuration: it commutes with writing the one there is. -/
theorem cfg_of_busy_step {s t : State} (hs : s.seq ≠ .idle) (h : step s = .next t) : t.cfg = s.cfg := by
  have hcommute := step_withCfg_of_busy s s.cfg hs
  rw [State.withCfg_self, h, onNext_next] at hcommute
  have ht : t = t.withCfg s.cfg := Host.Outcome.next.inj hcommute
  calc t.cfg = (t.withCfg s.cfg).cfg := congrArg State.cfg ht
    _ = s.cfg := t.withCfg_cfg s.cfg

/-! ## Steps that differ in `flags` and `sample_delay` alone -/

/-- The configuration with other values in `flags` and `sample_delay`. -/
def CaptureConfig.withFlagsDelay (f : Word) (d : Nat) (c : CaptureConfig) : CaptureConfig :=
  { c with flags := f, sampleDelay := d }

/-- The state with other values in `flags` and `sample_delay`. -/
def State.withFlagsDelay (f : Word) (d : Nat) (s : State) : State := s.withCfg (s.cfg.withFlagsDelay f d)

/-- `r'` is `r`, but for `flags` and `sample_delay` of the next state. -/
def SameButFlagsDelay (r' r : Result) : Prop := ∃ f d, r' = onNext (State.withFlagsDelay f d) r

section

variable (s : State) (f : Word) (d : Nat)

theorem underLimit_sameButFlagsDelay {r' r : Result} (k : Counter) (n : Nat) (h : SameButFlagsDelay r' r) :
    SameButFlagsDelay (underLimit k n (s.withFlagsDelay f d) r') (underLimit k n s r) := by
  rcases underLimit_withCfg_cases s (s.cfg.withFlagsDelay f d) k n r' r with ⟨h', hr⟩ | ⟨h', hr⟩
  · exact ⟨f, d, by rw [hr, State.withFlagsDelay, h']; rfl⟩
  · rwa [hr, State.withFlagsDelay, h']

theorem execArm_sameButFlagsDelay : SameButFlagsDelay (execArm (s.withFlagsDelay f d)) (execArm s) := by
  have hvalid : (s.withFlagsDelay f d).cfg.rateValid = s.cfg.rateValid := rfl
  have hlatches : armedLatches (s.withFlagsDelay f d).cfg = armedLatches s.cfg := rfl
  simp only [execArm, hvalid, hlatches]
  split
  · exact ⟨f, d, rfl⟩
  · exact underLimit_sameButFlagsDelay s f d _ _ ⟨f, d, rfl⟩

theorem rateAfter_withFlagsDelay (c : CaptureConfig) (q : Nat) :
    rateAfter (c.withFlagsDelay f d) q = (rateAfter c q).withFlagsDelay f d := by
  unfold rateAfter
  split <;> rfl

theorem execSetDivider_sameButFlagsDelay (w : Word) :
    SameButFlagsDelay (execSetDivider w (s.withFlagsDelay f d)) (execSetDivider w s) := by
  refine underLimit_sameButFlagsDelay s f d _ _ ⟨f, d, ?_⟩
  exact congrArg (fun c => Host.Outcome.next (s.withCfg c)) (rateAfter_withFlagsDelay f d s.cfg _)

/-- A command of stages 1 to 3 reads neither register when the stage 0 setter `g` reads neither. -/
theorem onAlias_sameButFlagsDelay {g : State → State}
    (hg : g (s.withFlagsDelay f d) = (g s).withFlagsDelay f d) :
    SameButFlagsDelay (onAlias g (s.withFlagsDelay f d)) (onAlias g s) := by
  have hparams : (s.withFlagsDelay f d).params = s.params := rfl
  refine ⟨f, d, ?_⟩
  simp only [onAlias, hparams, hg, onNext_next]
  split <;> rfl

/-- No command reads the two registers: SET_FLAGS, SET_DELAY_COUNT and SET_CAPTURE_SIZE write them, and the others keep
them. -/
theorem exec_sameButFlagsDelay (i : Instr) : SameButFlagsDelay (exec i (s.withFlagsDelay f d)) (exec i s) := by
  cases i with
  | reset | xon | xoff | unknown | queryId | queryMetadata => exact ⟨f, d, rfl⟩
  | arm => exact execArm_sameButFlagsDelay s f d
  | setDivider w => exact execSetDivider_sameButFlagsDelay s f d w
  | setCaptureSize a b =>
    exact underLimit_sameButFlagsDelay s f d _ _ (underLimit_sameButFlagsDelay s f d _ _ ⟨f, times4 b.toNat, rfl⟩)
  | setFlags w => exact ⟨w, d, rfl⟩
  | setDelayCount n => exact underLimit_sameButFlagsDelay s f d _ _ ⟨f, times4 n.toNat, rfl⟩
  | setReadCount n => exact underLimit_sameButFlagsDelay s f d _ _ ⟨f, d, rfl⟩
  | setTriggerMask0 | setTriggerValue0 | setTriggerConfig0 => exact ⟨f, d, rfl⟩
  | setTriggerMask1 | setTriggerMask2 | setTriggerMask3
  | setTriggerValue1 | setTriggerValue2 | setTriggerValue3
  | setTriggerConfig1 | setTriggerConfig2 | setTriggerConfig3 => exact onAlias_sameButFlagsDelay s f d rfl

theorem fetch_withFlagsDelay : fetch (s.withFlagsDelay f d) = ((fetch s).1.withFlagsDelay f d, (fetch s).2) := by
  simp only [State.withFlagsDelay, fetch_withCfg, fetch_cfg]

theorem idleStep_sameButFlagsDelay : SameButFlagsDelay (idleStep (s.withFlagsDelay f d)) (idleStep s) := by
  simp only [idleStep, fetch_withFlagsDelay]
  rcases fetch s with ⟨s', _ | i⟩
  · exact ⟨f, d, rfl⟩
  · exact exec_sameButFlagsDelay s' f d i

end

theorem step_of_idle {s : State} (hf : s.fault = .none) (hq : s.seq = .idle) : step s = idleStep s := by
  rw [step_unfaulted hf, hq]

/-- A step from a state with other `flags` and `sample_delay` differs in them alone. -/
theorem step_withFlagsDelay {s t : State} (f : Word) (d : Nat) (h : step s = .next t) :
    ∃ f' d', step (s.withFlagsDelay f d) = .next (t.withFlagsDelay f' d') := by
  by_cases hs : s.seq = .idle
  · have hf := fault_none_of_step h
    obtain ⟨f', d', he⟩ := idleStep_sameButFlagsDelay s f d
    rw [← step_of_idle hf hs, h, ← step_of_idle (s := s.withFlagsDelay f d) hf hs] at he
    exact ⟨f', d', he⟩
  · refine ⟨f, d, ?_⟩
    simp only [State.withFlagsDelay, step_withCfg_of_busy s _ hs, h, onNext_next, cfg_of_busy_step hs h]

/-- Settles O53: outside IDLE no configuration register is read, and in IDLE no command reads these two. -/
theorem flagsAndDelayHaveNoEffect : Obligations.FlagsAndDelayHaveNoEffect :=
  fun _ _ f d h => step_withFlagsDelay f d h

end Sys2Proof.Machine
end

section
/-! PROOFS. O3, O13, O27: what a command does that changes nothing or the trigger enable alone, dispatched or sent as a
byte (40_config_commands.md R90, R94, R95, R105, R115). -/

namespace Sys2Proof

/-- A byte that is no opcode's under the map is found as none. -/
theorem opOfWith_eq_none {code : Op → Byte} {b : Byte} (h : ∀ o, code o ≠ b) : opOfWith code b = none :=
  List.find?_eq_none.2 fun o _ => by simp [h o]

/-- The decoder on a byte that is no opcode's: a whole frame, whatever follows. -/
theorem decodeWith_unknown {code : Op → Byte} {b : Byte} (h : ∀ o, code o ≠ b) (rest : List Byte) :
    decodeWith code (b :: rest) = .ok (.unknown b, rest) := by
  simp only [decodeWith, opOfWith_eq_none h]

namespace Machine

/-! ## The commands with no effect -/

@[simp] theorem exec_reset (s : State) : exec .reset s = .next s := rfl
@[simp] theorem exec_xon (s : State) : exec .xon s = .next s := rfl
@[simp] theorem exec_xoff (s : State) : exec .xoff s = .next s := rfl
@[simp] theorem exec_unknown (b : Byte) (s : State) : exec (.unknown b) s = .next s := rfl

/-- Settles O3: each of the four is the identity. -/
theorem resetXonXoffUnknownChangeNothing : Obligations.ResetXonXoffUnknownChangeNothing :=
  fun s b => ⟨exec_reset s, exec_xon s, exec_xoff s, exec_unknown b s⟩

/-! ## An unknown byte on the link -/

/-- One byte read in an aligned framer, of a byte that is no opcode's. -/
theorem fetch_unknown {s : State} {b : Byte} {rest : List LinkEvent} (hframe : s.frame = [])
    (hcmd : s.cmd = .byte b :: rest) (hb : ∀ o, s.params.opcodes.byte o ≠ b) :
    fetch s = (s.withCmd rest, some (.unknown b)) := by
  have haligned : (s.withCmd rest).withFrame [] = s.withCmd rest := by
    rw [← hframe, ← s.withCmd_frame rest, State.withFrame_self]
  simp only [fetch, hcmd, takeByte, State.withCmd_params, State.withCmd_frame, hframe, List.nil_append,
    decodeWith_unknown hb, haligned]

/-- Settles O27: the framer takes the byte as a whole frame, and the dispatch of UNKNOWN changes nothing. -/
theorem unknownByteIsAOneByteFrame : Obligations.UnknownByteIsAOneByteFrame := by
  intro s b rest hready hframe hcmd hb
  calc step s = idleStep s := step_of_idle hready.no_fault hready.idle
    _ = exec (.unknown b) (s.withCmd rest) := by rw [idleStep, fetch_unknown hframe hcmd hb]
    _ = .next (s.withCmd rest) := exec_unknown b _

/-! ## The configuration byte of a trigger stage -/

/-- Bit `i` of the configuration byte is bit `24 + i` of the parameter (30_encoding.md R74). -/
theorem configByte_getLsbD (p : Word) {i : Nat} (hi : i < 8) : (configByte p).getLsbD i = p.getLsbD (24 + i) := by
  simp [configByte, hi]

/-- Serial mode, bit 26 of the parameter, disables the trigger; otherwise bit 27 is the enable. -/
theorem enableAfter_configByte (p : Word) :
    enableAfter (configByte p) = if p.getLsbD 26 then false else p.getLsbD 27 := by
  rw [enableAfter, configByte_getLsbD p (by decide), configByte_getLsbD p (by decide)]

theorem exec_setTriggerConfig0 (p : Word) (s : State) : exec (.setTriggerConfig0 p) s =
    .next (s.withCfg { s.cfg with triggerEnabled := if p.getLsbD 26 then false else p.getLsbD 27 }) := by
  rw [← enableAfter_configByte]
  rfl

/-- Settles O13: the command stores what `enableAfter` makes of the two bits. -/
theorem setTriggerConfigReadsBitsTwoAndThree : Obligations.SetTriggerConfigReadsBitsTwoAndThree := by
  intro s p
  rw [exec_setTriggerConfig0]
  constructor
  · intro hserial
    rw [if_pos hserial]
    rfl
  · intro hserial
    rw [hserial]
    rfl

end Machine

end Sys2Proof
end

section
/-! PROOFS. O48: a busy block neither takes a byte nor sees what the host has sent (40_config_commands.md R116).

The steps of the trigger wait, the capture and the report read and write the sequencer's own registers alone. So any
update of State that leaves those registers alone can be made before such a step or after it; the laws of `withCfg` above
are the case of the configuration. -/

namespace Sys2Proof.Machine

/-- `g` changes State outside what the steps of a busy block read, and commutes with every write they make. -/
structure OutsideSequencer (g : State → State) : Prop where
  params : ∀ s, (g s).params = s.params
  ts : ∀ s, (g s).ts = s.ts
  cap : ∀ s, (g s).cap = s.cap
  rep : ∀ s, (g s).rep = s.rep
  seq : ∀ s, (g s).seq = s.seq
  fault : ∀ s, (g s).fault = s.fault
  env : ∀ s, (g s).env = s.env
  withCap : ∀ s c, (g s).withCap c = g (s.withCap c)
  withRep : ∀ s r, (g s).withRep r = g (s.withRep r)
  withSeq : ∀ s q, (g s).withSeq q = g (s.withSeq q)
  withEnv : ∀ s e, (g s).withEnv e = g (s.withEnv e)
  writeOut : ∀ s bs, (g s).writeOut bs = g (s.writeOut bs)
  raiseFault : ∀ s r, (g s).raiseFault r = g (s.raiseFault r)

theorem outsideSequencer_withCmd (c : List LinkEvent) : OutsideSequencer (·.withCmd c) := by
  constructor <;> intros <;> rfl

theorem outsideSequencer_withFrame (f : List Byte) : OutsideSequencer (·.withFrame f) := by
  constructor <;> intros <;> rfl

namespace OutsideSequencer

variable {g : State → State} (hg : OutsideSequencer g) (s : State)

include hg

theorem portRead_comm : portRead (g s) = ((portRead s).1, g (portRead s).2) := by
  cases h : s.env.polls <;> simp [portRead, hg.env, hg.withEnv, h]

theorem stopSampled_comm : stopSampled (g s) = ((stopSampled s).1, g (stopSampled s).2) := by
  cases h : s.env.stops <;> simp [stopSampled, hg.env, hg.withEnv, h]

theorem hostTakes_comm : hostTakes (g s) = ((hostTakes s).1, g (hostTakes s).2) := by
  cases h : s.env.accepts <;> simp [hostTakes, hg.env, hg.withEnv, h]

theorem emit_comm (b : Byte) : emit b (g s) = ((emit b s).1, g (emit b s).2) := by
  simp only [emit, hg.hostTakes_comm, hg.writeOut, apply_ite g]

theorem underLimit_comm (k : Counter) (n : Nat) (r : Result) :
    underLimit k n (g s) (onNext g r) = onNext g (underLimit k n s r) := by
  simp only [underLimit, hg.params, hg.raiseFault, apply_ite (onNext g), onNext_next]

theorem trigWaitStep_comm : trigWaitStep (g s) = onNext g (trigWaitStep s) := by
  simp only [trigWaitStep, hg.stopSampled_comm, hg.portRead_comm, hg.ts, hg.withSeq, apply_ite (onNext g), onNext_next]

theorem rleFirst_comm (x : Byte) : rleFirst x (g s) = onNext g (rleFirst x s) := by
  simp only [rleFirst, hg.cap]
  cases bufWrite s.cap.runs 0 ⟨x, 1⟩ with
  | none => rfl
  | some m => simp only [hg.withCap, onNext_next]

theorem capFirstStep_comm : capFirstStep (g s) = onNext g (capFirstStep s) := by
  simp only [capFirstStep, hg.portRead_comm, hg.withSeq, hg.rleFirst_comm, hg.underLimit_comm]

theorem rleUpdate_comm (x : Byte) : rleUpdate x (g s) = onNext g (rleUpdate x s) := by
  simp only [rleUpdate, hg.cap]
  cases openRun x s.cap with
  | none => rfl
  | some cap =>
    cases hr : bufRead cap.runs cap.cursor with
    | none => simp only [hr, onNext_fault]
    | some r =>
      simp only [hr, ← hg.underLimit_comm]
      cases countSample x r cap <;> simp only [hg.withCap, onNext_fault, onNext_next]

theorem reportInit_comm : reportInit (g s) = onNext g (reportInit s) := by
  simp only [reportInit, hg.cap]
  cases bufRead s.cap.runs s.cap.cursor with
  | none => rfl
  | some r => simp only [hg.withRep, hg.withSeq, onNext_next]

theorem capLoopStep_comm : capLoopStep (g s) = onNext g (capLoopStep s) := by
  simp only [capLoopStep, pollStep, hg.stopSampled_comm, hg.portRead_comm, hg.ts, hg.cap, hg.reportInit_comm,
    hg.rleUpdate_comm, apply_ite (onNext g)]

theorem emitSample_comm : emitSample (g s) = onNext g (emitSample s) := by
  simp only [emitSample, hg.cap, hg.rep]
  cases bufRead s.cap.runs s.rep.j with
  | none => rfl
  | some r => simp only [hg.emit_comm, hg.withRep, apply_ite (onNext g), onNext_next]

theorem walkSample_comm : walkSample (g s) = onNext g (walkSample s) := by
  simp only [walkSample, ← hg.underLimit_comm, hg.rep, hg.ts, hg.emitSample_comm, hg.withRep, apply_ite (onNext g),
    onNext_next]

theorem nextRun_comm : nextRun (g s) = onNext g (nextRun s) := by
  simp only [nextRun, hg.cap, hg.rep]
  cases bufRead s.cap.runs (s.rep.j - 1) with
  | none => rfl
  | some r => simp only [hg.withRep, onNext_next]

theorem reportStep_comm : reportStep (g s) = onNext g (reportStep s) := by
  simp only [reportStep, reportEnd, hg.rep, hg.walkSample_comm, hg.nextRun_comm, hg.withSeq, apply_ite (onNext g),
    onNext_next]

/-- A busy block's step may be taken before the update or after it. -/
theorem step_comm_of_busy {s : State} (hs : s.seq ≠ .idle) : step (g s) = onNext g (step s) := by
  simp only [step, hg.fault, hg.seq]
  cases s.fault with
  | rateUndefined | counterLimit => rfl
  | none =>
    cases hq : s.seq with
    | idle => exact absurd hq hs
    | trigWait => exact hg.trigWaitStep_comm s
    | capFirst => exact hg.capFirstStep_comm s
    | capLoop => exact hg.capLoopStep_comm s
    | report => exact hg.reportStep_comm s

theorem step_eq_next_of_busy {s t : State} (hs : s.seq ≠ .idle) (h : step s = .next t) : step (g s) = .next (g t) := by
  rw [hg.step_comm_of_busy hs, h, onNext_next]

/-- An update that changes nothing before a busy block's step changes nothing after it. -/
theorem fixed_by_busy_step {s t : State} (hs : s.seq ≠ .idle) (h : step s = .next t) (hfix : g s = s) : g t = t := by
  have hcommute := hg.step_eq_next_of_busy hs h
  rw [hfix, h] at hcommute
  exact (Host.Outcome.next.inj hcommute).symm

end OutsideSequencer

theorem cmd_of_busy_step {s t : State} (hs : s.seq ≠ .idle) (h : step s = .next t) : t.cmd = s.cmd :=
  (congrArg State.cmd ((outsideSequencer_withCmd s.cmd).fixed_by_busy_step hs h rfl)).symm

theorem frame_of_busy_step {s t : State} (hs : s.seq ≠ .idle) (h : step s = .next t) : t.frame = s.frame :=
  (congrArg State.frame ((outsideSequencer_withFrame s.frame).fixed_by_busy_step hs h rfl)).symm

/-- Settles O48: what the host has sent and what the framer holds lie outside the sequencer. -/
theorem busyBlockTakesNoByteAndKeepsConfiguration : Obligations.BusyBlockTakesNoByteAndKeepsConfiguration := by
  intro s t hbusy h
  have hs : s.seq ≠ .idle := of_decide_eq_true hbusy
  exact ⟨cmd_of_busy_step hs h, frame_of_busy_step hs h, cfg_of_busy_step hs h,
    fun c => (outsideSequencer_withCmd c).step_eq_next_of_busy hs h⟩

end Sys2Proof.Machine
end

section
/-! PROOFS. O33, O32, O16: the trigger wait, and the ARM that starts it (41_trigger_matcher.md R133, R134, R136,
42_capture_state_machine.md R151 to R155). -/

namespace Sys2Proof.Machine

/-! ## One step of the trigger wait -/

theorem step_of_trigWait {s : State} (hf : s.fault = .none) (hq : s.seq = .trigWait) : step s = trigWaitStep s := by
  rw [step_unfaulted hf, hq]

/-- The predicate as a proposition: the formula of R130. -/
theorem triggerMatch_iff {m v x : Byte} :
    triggerMatch m v x = true ↔ (x &&& m &&& v ≠ 0 ∨ ~~~x &&& m &&& ~~~v ≠ 0) := by
  simp only [triggerMatch, Bool.or_eq_true, decide_eq_true_eq]

/-- A stop ends the wait, and no poll is made. -/
theorem trigWaitStep_stop {s : State} {bs : List Bool} (hstops : s.env.stops = true :: bs) :
    trigWaitStep s = .next ((s.withEnv { s.env with stops := bs }).withSeq .capFirst) := by
  simp only [trigWaitStep, stopSampled_listed hstops, if_true]

/-- Without a stop, one poll is made, and the predicate on it says whether the wait ends. -/
theorem trigWaitStep_poll {s : State} {x : Byte} {xs : List Byte} {bs : List Bool}
    (hstops : s.env.stops = false :: bs) (hpolls : s.env.polls = x :: xs) :
    trigWaitStep s =
      if triggerMatch s.ts.mask s.ts.value x then
        .next ((s.withEnv { s.env with polls := xs, stops := bs }).withSeq .capFirst)
      else .next (s.withEnv { s.env with polls := xs, stops := bs }) := by
  have hread : portRead (s.withEnv { s.env with stops := bs }) =
      (x, s.withEnv { s.env with polls := xs, stops := bs }) := portRead_listed hpolls
  simp only [trigWaitStep, stopSampled_listed hstops, hread, Bool.false_eq_true, if_false, State.withEnv_ts]

/-- Settles O32: a stop is answered before the poll, and otherwise the predicate's formula decides. -/
theorem triggerWaitStep : Obligations.TriggerWaitStep := by
  intro s b x bs xs hq hf hstops hpolls
  rw [step_of_trigWait hf hq, ← triggerMatch_iff]
  refine ⟨?_, ?_, ?_⟩
  · rintro rfl
    exact trigWaitStep_stop hstops
  · rintro rfl hmatch
    rw [trigWaitStep_poll hstops hpolls, if_pos hmatch]
    rfl
  · rintro rfl hmatch
    rw [trigWaitStep_poll hstops hpolls, if_neg hmatch]
    rfl

/-! ## The wait goes on -/

/-- A poll that fails, with no stop seen, uses up the two answers of the environment and changes nothing else. -/
theorem step_of_failing_poll {s : State} {x : Byte} {xs : List Byte} {bs : List Bool} (hq : s.seq = .trigWait)
    (hf : s.fault = .none) (hmatch : triggerMatch s.ts.mask s.ts.value x = false) (hpolls : s.env.polls = x :: xs)
    (hstops : s.env.stops = false :: bs) : step s = .next (s.withEnv { s.env with polls := xs, stops := bs }) := by
  rw [step_of_trigWait hf hq, trigWaitStep_poll hstops hpolls, hmatch]
  rfl

/-- Settles O33: after a failing poll the block waits with one answer fewer, by induction on the polls. -/
theorem triggerWaitHasNoTimeout : Obligations.TriggerWaitHasNoTimeout := by
  intro s xs ys bs
  induction xs generalizing s with
  | nil =>
    intro _ _ _ hpolls hstops
    have hys : s.env.polls = ys := hpolls
    have hbs : s.env.stops = bs := hstops
    subst hys hbs
    exact steps_zero s
  | cons x xs ih =>
    intro hq hf hfail hpolls hstops
    obtain ⟨hx, hxs⟩ := List.forall_mem_cons.1 hfail
    have hstep : step s = .next (s.withEnv
        { s.env with polls := xs ++ ys, stops := List.replicate xs.length false ++ bs }) :=
      step_of_failing_poll hq hf hx hpolls hstops
    rw [List.length_cons, steps_succ hstep]
    exact ih _ hq hf hxs rfl rfl

/-! ## The arm step -/

theorem waitsForTrigger_iff {l : TriggerState} : waitsForTrigger l = true ↔ l.enabled = true ∧ l.mask ≠ 0 := by
  simp only [waitsForTrigger, Bool.and_eq_true, decide_eq_true_eq]

/-- `cap_rate` is the number its two inequalities fix. -/
theorem captureRate_eq {rate r : Nat} (hle : r * rate ≤ 1000000) (hlt : 1000000 < (r + 1) * rate) :
    captureRate rate = r :=
  Nat.div_eq_of_lt_le hle hlt

/-- With a valid rate and a budget within the limit, ARM latches and starts. -/
theorem execArm_of_within {s : State} (hvalid : s.cfg.rateValid = true)
    (hbudget : Within s.params (armedLatches s.cfg).capBudget) :
    execArm s = .next ((s.withTs (armedLatches s.cfg)).withSeq
      (if waitsForTrigger (armedLatches s.cfg) then .trigWait else .capFirst)) := by
  rcases execArm_cases s with ⟨hinvalid, _⟩ | ⟨_, hover, _⟩ | ⟨_, _, h⟩
  · exact absurd hvalid (by simp [hinvalid])
  · exact absurd (overLimit_eq_false.2 hbudget) (by simp [hover])
  · exact h

/-- Settles O16: the arm step's latches at the rate `r`, and its destination by the two conditions of R133. -/
theorem armLatchesConfigurationAndStarts : Obligations.ArmLatchesConfigurationAndStarts := by
  intro s r hvalid hle hlt hbudget
  have hrate : captureRate s.cfg.sampleRate = r := captureRate_eq hle hlt
  subst hrate
  calc exec .arm s = execArm s := rfl
    _ = .next ((s.withTs (armedLatches s.cfg)).withSeq
          (if waitsForTrigger (armedLatches s.cfg) then .trigWait else .capFirst)) :=
        execArm_of_within hvalid hbudget
    _ = _ := by
        rw [if_congr waitsForTrigger_iff rfl rfl]
        rfl

end Sys2Proof.Machine
end

section
/-! PROOFS. O15, O35, O36: the ARM without a valid rate, and one step of the capture loop (42_capture_state_machine.md
R152, R157 to R159, R163, 43_run_length_encoder.md R182). -/

namespace Sys2Proof.Machine

/-! ## ARM without a valid rate -/

/-- The rate is checked before anything else. -/
theorem execArm_of_invalid {s : State} (hinvalid : s.cfg.rateValid = false) :
    execArm s = .next (s.raiseFault .rateUndefined) := by
  simp only [execArm, hinvalid, if_true]

/-- Settles O15: raising the fault writes the fault register alone. -/
theorem armWithoutRateRaisesRateUndefined : Obligations.ArmWithoutRateRaisesRateUndefined :=
  fun _ hinvalid => execArm_of_invalid hinvalid

/-! ## The boundary test -/

theorem step_of_capLoop {s : State} (hf : s.fault = .none) (hq : s.seq = .capLoop) : step s = capLoopStep s := by
  rw [step_unfaulted hf, hq]

/-- The three stop conditions of R157. -/
theorem boundaryStop_iff {b : Bool} {l : TriggerState} {c : Capture} :
    boundaryStop b l c = true ↔ b = true ∨ l.capBudget ≤ c.taken ∨ c.cursor = 3499 := by
  have hlast : Config.bufferSize - 1 = 3499 := rfl
  simp only [boundaryStop, hlast, Bool.or_eq_true, decide_eq_true_eq, or_assoc]

/-- A capture short of its budget and of the last slot goes on when no stop is seen. -/
theorem boundaryStop_false {l : TriggerState} {c : Capture} (hcursor : c.cursor < 3499)
    (htaken : c.taken < l.capBudget) : boundaryStop false l c = false := by
  rw [Bool.eq_false_iff, ne_eq, boundaryStop_iff]
  rintro (hstop | hbudget | hlast)
  · exact Bool.false_ne_true hstop
  · omega
  · omega

/-- With a stop condition the report is set up, and no poll is made. -/
theorem capLoopStep_stop {s : State} {b : Bool} {bs : List Bool} (hstops : s.env.stops = b :: bs)
    (hboundary : boundaryStop b s.ts s.cap = true) :
    capLoopStep s = reportInit (s.withEnv { s.env with stops := bs }) := by
  simp only [capLoopStep, stopSampled_listed hstops, State.withEnv_ts, State.withEnv_cap, hboundary, if_true]

/-- Without a stop condition one poll is made, and the run-length encoder takes its sample. -/
theorem capLoopStep_poll {s : State} {b : Bool} {x : Byte} {xs : List Byte} {bs : List Bool}
    (hstops : s.env.stops = b :: bs) (hpolls : s.env.polls = x :: xs) (hboundary : boundaryStop b s.ts s.cap = false) :
    capLoopStep s = rleUpdate x (s.withEnv { s.env with polls := xs, stops := bs }) := by
  have hread : portRead (s.withEnv { s.env with stops := bs }) =
      (x, s.withEnv { s.env with polls := xs, stops := bs }) := portRead_listed hpolls
  simp only [capLoopStep, stopSampled_listed hstops, State.withEnv_ts, State.withEnv_cap, hboundary,
    Bool.false_eq_true, if_false, pollStep, hread]

/-- Settles O35: each condition makes the one boundary test true, and the report's set-up reads none of them. -/
theorem anyStopConditionStartsTheReport : Obligations.AnyStopConditionStartsTheReport := by
  intro s b bs hq hf hcursor hstops hcondition
  calc step s = capLoopStep s := step_of_capLoop hf hq
    _ = reportInit (s.withEnv { s.env with stops := bs }) := capLoopStep_stop hstops (boundaryStop_iff.2 hcondition)
    _ = _ := reportInit_of_lt hcursor

/-! ## One sample in the run-length encoder -/

/-- The capture `c` with one more sample, `x`, counted in its current run. -/
def Capture.counted (x : Byte) (c : Capture) : Capture where
  runs := c.runs.write c.cursor ⟨(c.runs.read c.cursor).value, (c.runs.read c.cursor).count + 1⟩
  cursor := c.cursor
  prev := x
  taken := c.taken + 1

/-- The capture `c` with the slot after its cursor opened as a run of `x` that counts no sample yet. -/
def Capture.opened (x : Byte) (c : Capture) : Capture :=
  { c with runs := c.runs.write (c.cursor + 1) ⟨x, 0⟩, cursor := c.cursor + 1 }

theorem openRun_of_eq {x : Byte} {c : Capture} (hx : x = c.prev) : openRun x c = some c := if_pos hx

theorem openRun_of_ne {x : Byte} {c : Capture} (hx : x ≠ c.prev) (hslot : c.cursor + 1 < Config.bufferSize) :
    openRun x c = some (c.opened x) := by
  simp only [openRun, if_neg hx, bufWrite_of_lt _ hslot, Option.map_some, Capture.opened]

theorem countSample_of_lt (x : Byte) {c : Capture} (hslot : c.cursor < Config.bufferSize) :
    countSample x (c.runs.read c.cursor) c = some (c.counted x) := by
  simp only [countSample, bufWrite_of_lt _ hslot, Option.map_some, Capture.counted]

/-- `rle_update` once the current run is fixed: the run's count and then `taken` are held to the limit, and the sample is
counted. -/
theorem rleUpdate_of_openRun {x : Byte} {s : State} {c : Capture} (hopen : openRun x s.cap = some c)
    (hslot : c.cursor < Config.bufferSize) :
    rleUpdate x s = underLimit .runCount ((c.runs.read c.cursor).count + 1) s
      (underLimit .taken (c.taken + 1) s (.next (s.withCap (c.counted x)))) := by
  simp only [rleUpdate, hopen, bufRead_of_lt hslot, countSample_of_lt x hslot]

theorem rleUpdate_of_within {x : Byte} {s : State} {c : Capture} (hopen : openRun x s.cap = some c)
    (hslot : c.cursor < Config.bufferSize) (hcount : Within s.params ((c.runs.read c.cursor).count + 1))
    (htaken : Within s.params (c.taken + 1)) : rleUpdate x s = .next (s.withCap (c.counted x)) := by
  rw [rleUpdate_of_openRun hopen hslot, underLimit_of_within hcount, underLimit_of_within htaken]

theorem Capture.counted_read_cursor (x : Byte) {c : Capture} (hwf : c.runs.wf = true) :
    (c.counted x).runs.read c.cursor = ⟨(c.runs.read c.cursor).value, (c.runs.read c.cursor).count + 1⟩ :=
  Memory.read_write_self _ _ hwf

theorem Capture.counted_read_ne (x : Byte) (c : Capture) {i : Nat} (hi : i ≠ c.cursor) :
    (c.counted x).runs.read i = c.runs.read i :=
  Memory.read_write_ne _ hi _

theorem Capture.opened_wf (x : Byte) {c : Capture} (hwf : c.runs.wf = true)
    (hslot : c.cursor + 1 < Config.bufferSize) : (c.opened x).runs.wf = true :=
  Memory.wf_write _ hwf hslot

theorem Capture.opened_read_cursor (x : Byte) {c : Capture} (hwf : c.runs.wf = true) :
    (c.opened x).runs.read (c.opened x).cursor = ⟨x, 0⟩ :=
  Memory.read_write_self _ _ hwf

theorem Capture.opened_read_ne (x : Byte) (c : Capture) {i : Nat} (hi : i ≠ c.cursor + 1) :
    (c.opened x).runs.read i = c.runs.read i :=
  Memory.read_write_ne _ hi _

/-- What a poll leaves in the buffer when it opens a run: the new run with its one sample. -/
theorem Capture.opened_counted_read_cursor (x : Byte) {c : Capture} (hwf : c.runs.wf = true)
    (hslot : c.cursor + 1 < Config.bufferSize) : ((c.opened x).counted x).runs.read (c.cursor + 1) = ⟨x, 1⟩ := by
  calc ((c.opened x).counted x).runs.read (c.cursor + 1)
      = ⟨((c.opened x).runs.read (c.opened x).cursor).value, ((c.opened x).runs.read (c.opened x).cursor).count + 1⟩ :=
        (c.opened x).counted_read_cursor x (Capture.opened_wf x hwf hslot)
    _ = ⟨x, 1⟩ := by rw [Capture.opened_read_cursor x hwf]

theorem Capture.opened_counted_read_ne (x : Byte) (c : Capture) {i : Nat} (hi : i ≠ c.cursor + 1) :
    ((c.opened x).counted x).runs.read i = c.runs.read i :=
  ((c.opened x).counted_read_ne x hi).trans (c.opened_read_ne x hi)

theorem Within.mono {p : Params} {m n : Nat} (hmn : m ≤ n) (hn : Within p n) : Within p m :=
  fun l hl => Nat.le_trans hmn (hn l hl)

/-- Settles O36: the poll's sample is counted in the current run, or in one opened for it whose count of one is within
the limit because `taken` is. -/
theorem pollCountsOrOpensARun : Obligations.PollCountsOrOpensARun := by
  intro s x xs bs hq hf hwf hcursor hbudget hstops hpolls htaken
  have hslot : s.cap.cursor + 1 < Config.bufferSize := Nat.succ_lt_succ hcursor
  have hpoll : step s = rleUpdate x (s.withEnv { s.env with polls := xs, stops := bs }) := by
    rw [step_of_capLoop hf hq, capLoopStep_poll hstops hpolls (boundaryStop_false hcursor hbudget)]
  constructor
  · intro hx hcount
    refine ⟨(s.cap.counted x).runs, ?_, s.cap.counted_read_cursor x hwf, fun i hi => s.cap.counted_read_ne x hi⟩
    rw [hpoll]
    exact rleUpdate_of_within (openRun_of_eq hx) (Nat.lt_of_succ_lt hslot) hcount htaken
  · intro hx
    have hcount : Within s.params (((s.cap.opened x).runs.read (s.cap.opened x).cursor).count + 1) := by
      rw [Capture.opened_read_cursor x hwf]
      exact htaken.mono (Nat.le_add_left 1 _)
    refine ⟨((s.cap.opened x).counted x).runs, ?_, Capture.opened_counted_read_cursor x hwf hslot,
      fun i hi => s.cap.opened_counted_read_ne x hi⟩
    rw [hpoll]
    exact rleUpdate_of_within (openRun_of_ne hx hslot) hslot hcount htaken

end Sys2Proof.Machine
end

section
/-! PROOFS. O49: run slots change only in a capture (20_memory.md section 1, 43_run_length_encoder.md R181 and R182).

A step in IDLE, TRIG_WAIT or REPORT keeps the whole capture. A step in CAP_FIRST writes slot 0 alone, and a step in
CAP_LOOP writes the slot its cursor ends on alone. -/

namespace Sys2Proof.Machine

/-! ## The steps that keep the capture -/

theorem cap_of_exec {i : Instr} {s t : State} (h : exec i s = .next t) : t.cap = s.cap := by
  by_cases hi : i = .arm
  · subst hi
    have harm : execArm s = .next t := h
    rcases execArm_cases s with ⟨_, he⟩ | ⟨_, _, he⟩ | ⟨_, _, he⟩ <;>
    · rw [he] at harm
      cases harm
      rfl
  · obtain ⟨c, n, he, _⟩ | ⟨c, bs, he, _⟩ := exec_other hi s <;>
    · rw [he] at h
      cases h
      rfl

theorem fetch_cap (s : State) : (fetch s).1.cap = s.cap := by
  obtain ⟨c, f, hf, _⟩ := fetch_cases s
  rw [hf]
  rfl

theorem cap_of_idleStep {s t : State} (h : idleStep s = .next t) : t.cap = s.cap := by
  rw [← fetch_cap s]
  unfold idleStep at h
  split at h
  case h_1 s' hfetch =>
    cases h
    rw [hfetch]
  case h_2 s' i hfetch =>
    rw [hfetch]
    exact cap_of_exec h

theorem cap_of_trigWaitStep {s t : State} (h : trigWaitStep s = .next t) : t.cap = s.cap := by
  obtain ⟨ps, d, q, he, _⟩ := trigWaitStep_cases s
  rw [he] at h
  cases h
  rfl

theorem cap_of_reportInit {s t : State} (h : reportInit s = .next t) : t.cap = s.cap := by
  obtain ⟨_, rfl⟩ := reportInit_eq_next h
  rfl

theorem cap_of_reportStep {s t : State} (h : reportStep s = .next t) : t.cap = s.cap := by
  obtain ⟨_, rfl⟩ | ⟨_, _, d, rfl⟩ | ⟨_, _, d, rfl⟩ | ⟨_, _, rfl⟩ | ⟨_, _, rfl⟩ | ⟨_, _, rfl⟩ := reportStep_cases h <;> rfl

/-! ## The steps that write a slot -/

/-- The first sample is written to slot 0, or, when its count passes the limit, nowhere. -/
theorem read_ne_of_capFirstStep {s t : State} {i : Nat} (h : capFirstStep s = .next t) (hi : i ≠ 0) :
    t.cap.runs.read i = s.cap.runs.read i := by
  obtain ⟨d, x, ⟨_, he⟩ | ⟨_, he⟩⟩ := capFirstStep_cases s
  · rw [he] at h
    cases h
    exact Memory.read_write_ne _ hi _
  · rw [he] at h
    cases h
    rfl

/-- A sample is counted in the run the cursor ends on, whether that run was open before or not. -/
theorem read_ne_of_rleUpdate {x : Byte} {s t : State} {i : Nat} (h : rleUpdate x s = .next t)
    (hi : i ≠ t.cap.cursor) : t.cap.runs.read i = s.cap.runs.read i := by
  obtain (rfl | rfl) | ⟨_, _, rfl⟩ | ⟨_, _, m, rfl, _, hother⟩ := rleUpdate_cases h
  · rfl
  · rfl
  · exact Memory.read_write_ne _ hi _
  · exact hother i hi

theorem read_ne_of_capLoopStep {s t : State} {i : Nat} (h : capLoopStep s = .next t) (hi : i ≠ t.cap.cursor) :
    t.cap.runs.read i = s.cap.runs.read i := by
  obtain ⟨d, stop, ⟨_, he⟩ | ⟨_, x, he⟩⟩ := capLoopStep_cases s
  · rw [he] at h
    rw [cap_of_reportInit h, State.withEnv_cap]
  · rw [he] at h
    rw [read_ne_of_rleUpdate h hi, State.withEnv_cap]

/-- Settles O49: one case for each state of the sequencer. -/
theorem runSlotsChangeOnlyInACapture : Obligations.RunSlotsChangeOnlyInACapture := by
  intro s t i h hchange
  have hkept {P : Prop} (hcap : t.cap = s.cap) : P := absurd (by rw [hcap]) hchange
  rw [step_unfaulted (fault_none_of_step h)] at h
  cases hq : s.seq with
  | idle =>
    rw [hq] at h
    exact hkept (cap_of_idleStep h)
  | trigWait =>
    rw [hq] at h
    exact hkept (cap_of_trigWaitStep h)
  | report =>
    rw [hq] at h
    exact hkept (cap_of_reportStep h)
  | capFirst =>
    rw [hq] at h
    exact .inl ⟨rfl, by_contra fun hi => hchange (read_ne_of_capFirstStep h hi)⟩
  | capLoop =>
    rw [hq] at h
    exact .inr ⟨rfl, by_contra fun hi => hchange (read_ne_of_capLoopStep h hi)⟩

end Sys2Proof.Machine
end

section
/-! PROOFS. O45: the report neither writes nor samples outside its own registers (44_decimation_filter.md R207, R209).

The only answer of the environment that a REPORT step asks for is whether the host takes a byte. So the stop levels to
come can be replaced before such a step or after it. -/

namespace Sys2Proof.Machine

/-- The stop levels to come replaced, and nothing else (20_memory.md R59). -/
def State.withStops (s : State) (bs : List Bool) : State := s.withEnv { s.env with stops := bs }

section ReadsNoStop

variable (s : State) (bs : List Bool)

@[simp] theorem State.withStops_params : (s.withStops bs).params = s.params := rfl
@[simp] theorem State.withStops_ts : (s.withStops bs).ts = s.ts := rfl
@[simp] theorem State.withStops_cap : (s.withStops bs).cap = s.cap := rfl
@[simp] theorem State.withStops_rep : (s.withStops bs).rep = s.rep := rfl

theorem hostTakes_withStops : hostTakes (s.withStops bs) = ((hostTakes s).1, (hostTakes s).2.withStops bs) := by
  cases h : s.env.accepts <;> simp [hostTakes, State.withStops, h]

theorem emit_withStops (b : Byte) : emit b (s.withStops bs) = ((emit b s).1, (emit b s).2.withStops bs) := by
  simp only [emit, hostTakes_withStops]
  cases (hostTakes s).1 <;> rfl

theorem underLimit_withStops (k : Counter) (n : Nat) (r : Result) :
    underLimit k n (s.withStops bs) (onNext (·.withStops bs) r) = onNext (·.withStops bs) (underLimit k n s r) := by
  simp only [underLimit, State.withStops_params, apply_ite (onNext (·.withStops bs)), onNext_next]
  rfl

theorem emitSample_withStops : emitSample (s.withStops bs) = onNext (·.withStops bs) (emitSample s) := by
  simp only [emitSample, State.withStops_cap, State.withStops_rep]
  cases bufRead s.cap.runs s.rep.j with
  | none => rfl
  | some r =>
    simp only [emit_withStops]
    split <;> rfl

theorem walkSample_withStops : walkSample (s.withStops bs) = onNext (·.withStops bs) (walkSample s) := by
  simp only [walkSample, ← underLimit_withStops, emitSample_withStops, State.withStops_rep, State.withStops_ts]
  split <;> rfl

theorem nextRun_withStops : nextRun (s.withStops bs) = onNext (·.withStops bs) (nextRun s) := by
  simp only [nextRun, State.withStops_cap, State.withStops_rep]
  cases bufRead s.cap.runs (s.rep.j - 1) <;> rfl

theorem reportStep_withStops : reportStep (s.withStops bs) = onNext (·.withStops bs) (reportStep s) := by
  simp only [reportStep, State.withStops_rep, walkSample_withStops, nextRun_withStops]
  split
  · rfl
  · split <;> rfl

end ReadsNoStop

theorem step_of_report {s : State} (hf : s.fault = .none) (hq : s.seq = .report) : step s = reportStep s := by
  rw [step_unfaulted hf, hq]

/-- What a REPORT step keeps of the latches and of the environment's answers: only those to an offered byte move. -/
theorem latches_and_samples_of_reportStep {s t : State} (h : reportStep s = .next t) :
    t.ts = s.ts ∧ t.env.stops = s.env.stops ∧ t.env.polls = s.env.polls := by
  obtain ⟨_, rfl⟩ | ⟨_, _, d, rfl⟩ | ⟨_, _, d, rfl⟩ | ⟨_, _, rfl⟩ | ⟨_, _, rfl⟩ | ⟨_, _, rfl⟩ := reportStep_cases h <;>
    exact ⟨rfl, rfl, rfl⟩

/-- Settles O45: a busy block keeps configuration, framer and commands, a REPORT step keeps the capture, the latches and
the answers to come of port and stop, and it commutes with replacing the stop levels. -/
theorem reportWritesNoBufferNoConfiguration : Obligations.ReportWritesNoBufferNoConfiguration := by
  intro s t hq h
  have hf : s.fault = .none := fault_none_of_step h
  have hbusy : s.seq ≠ .idle := by simp [hq]
  have hreport : reportStep s = .next t := by rw [← step_of_report hf hq, h]
  have hcap : t.cap = s.cap := cap_of_reportStep hreport
  obtain ⟨hts, hstops, hpolls⟩ := latches_and_samples_of_reportStep hreport
  refine ⟨fun i => by rw [hcap], hcap, cfg_of_busy_step hbusy h, hts, hstops, hpolls, frame_of_busy_step hbusy h,
    cmd_of_busy_step hbusy h, fun bs => ?_⟩
  calc step (s.withStops bs)
      = reportStep (s.withStops bs) := step_of_report hf hq
    _ = onNext (·.withStops bs) (reportStep s) := reportStep_withStops s bs
    _ = .next (t.withStops bs) := by rw [hreport, onNext_next]

end Sys2Proof.Machine
end

section
/-! PROOFS. O55: a faulted block stops with the reason its register holds (60_exceptions.md R224). With `step_unfaulted`,
the two rules below cover the three values of the fault register. -/

namespace Sys2Proof.Machine

theorem step_of_rateUndefined {s : State} (hf : s.fault = .rateUndefined) : step s = .fault .rateUndefined := by
  rw [step, hf]

theorem step_of_counterLimit {s : State} {c : Counter} (hf : s.fault = .counterLimit c) :
    step s = .fault (.counterLimit c) := by
  rw [step, hf]

/-- Settles O55: `step` reads the fault register before anything else, so each reason stops it whatever else the state
holds. -/
theorem faultedBlockTakesNoStep : Obligations.FaultedBlockTakesNoStep :=
  fun _ => ⟨step_of_rateUndefined, fun _ => step_of_counterLimit⟩

end Sys2Proof.Machine
end

section
/-! PROOFS. O26, O1: a read that brings no byte, and what power-on fixes (70_reset_and_hazards.md R240, R249). -/

namespace Sys2Proof.Machine

/-! ## A read that brings no byte -/

theorem fetch_timeout {s : State} {rest : List LinkEvent} (hcmd : s.cmd = .timeout :: rest) :
    fetch s = (s.withCmd rest, none) := by
  simp only [fetch, hcmd]

theorem fetch_nil {s : State} (hcmd : s.cmd = []) : fetch s = (s, none) := by
  simp only [fetch, hcmd]

/-- A ready block whose read completes no frame dispatches nothing: its step is the read alone. -/
theorem step_of_incomplete_fetch {s t : State} (hready : Ready s) (hfetch : fetch s = (t, none)) :
    step s = .next t := by
  rw [step_of_idle hready.no_fault hready.idle, idleStep, hfetch]

/-- Settles O26: neither a timeout nor an empty link completes a frame, and each leaves the framer as it was. -/
theorem timeoutLeavesTheFramerWhereItWas : Obligations.TimeoutLeavesTheFramerWhereItWas := by
  intro s rest hready
  constructor
  · intro hcmd
    exact step_of_incomplete_fetch hready (fetch_timeout hcmd)
  · intro hcmd
    exact step_of_incomplete_fetch hready (fetch_nil hcmd)

/-! ## Power-on -/

theorem busy_of_idle {s : State} (hq : s.seq = .idle) : s.busy = false := by
  simp [State.busy, hq]

/-- An aligned framer holds no byte and waits for an opcode (10_state.md R37). -/
theorem aligned_of_frame_nil {s : State} (hframe : s.frame = []) :
    s.framerMode = .waitingOpcode ∧ s.haveBytes = 0 := by
  simp [State.framerMode, State.haveBytes, hframe]

/-- Settles O1: `busy` and the framer's two registers are read off the idle sequencer and the empty frame; every other
register is a field that power-on sets. -/
theorem powerOnLeavesIdleAlignedUnfaulted : Obligations.PowerOnLeavesIdleAlignedUnfaulted := by
  intro p c
  have hidle : (State.powerOn p c).seq = .idle := rfl
  obtain ⟨hmode, hhave⟩ := aligned_of_frame_nil (s := State.powerOn p c) rfl
  exact ⟨hidle, busy_of_idle hidle, rfl, hmode, hhave, rfl, rfl, rfl, rfl, rfl, rfl, rfl⟩

end Sys2Proof.Machine
end

section
/-! PROOFS. O20, O21, O22, O23, O19: the decoder and the encoder are inverse to each other, and the first byte tells a
frame's length (30_encoding.md sections 1 to 5, 93_implementation_defined.md I1).

Every instruction is an `unknown` or the `frameOf` of a known opcode and four parameter bytes. Both directions of the
round trip are read off one description of each function on such a frame. -/

namespace Sys2Proof

/-! ## The parameter bytes -/

theorem wordBytes_assemble32 (p1 p2 p3 p4 : Byte) : wordBytes (assemble32 p1 p2 p3 p4) = [p1, p2, p3, p4] := by
  simp only [wordBytes, List.cons.injEq, and_true]
  refine ⟨?_, ?_, ?_, ?_⟩ <;> apply BitVec.eq_of_getLsbD_eq <;> intro i hi
  · simp [assemble32, hi, show i < 16 by omega, show i < 24 by omega, show i < 32 by omega]
  · simp [assemble32, hi, show 8 + i < 16 by omega, show 8 + i < 24 by omega, show 8 + i < 32 by omega]
  · simp [assemble32, hi, show 16 + i < 24 by omega, show 16 + i < 32 by omega, show 16 + i - 8 = 8 + i by omega,
      show 8 ≤ 16 + i by omega]
  · simp [assemble32, hi, show 24 + i < 32 by omega, show 24 + i - 8 = 16 + i by omega,
      show 24 + i - 16 = 8 + i by omega, show 8 ≤ 24 + i by omega, show 8 ≤ 16 + i by omega]

theorem halfBytes_assemble16 (lo hi : Byte) : halfBytes (assemble16 lo hi) = [lo, hi] := by
  simp only [halfBytes, List.cons.injEq, and_true]
  refine ⟨?_, ?_⟩ <;> apply BitVec.eq_of_getLsbD_eq <;> intro i hi
  · simp [assemble16, hi, show i < 16 by omega]
  · simp [assemble16, hi, show 8 + i < 16 by omega]

/-- The bytes that follow the opcode in a frame of `o`: none in an immediate one, and four otherwise (30_encoding.md
R70). -/
def paramBytes (o : Op) (p1 p2 p3 p4 : Byte) : List Byte := if formatOf o = .imm then [] else [p1, p2, p3, p4]

theorem frameOf_immediate {o : Op} (ho : formatOf o = .imm) (p1 p2 p3 p4 : Byte) :
    frameOf o p1 p2 p3 p4 = frameOf o 0 0 0 0 := by
  cases o <;> cases ho <;> rfl

/-! ## The encoder and the decoder on the frame of a known opcode -/

variable {code : Op → Byte}

theorem encodeWith_frameOf (o : Op) (p1 p2 p3 p4 : Byte) :
    encodeWith code (frameOf o p1 p2 p3 p4) = code o :: paramBytes o p1 p2 p3 p4 := by
  cases o <;> simp [frameOf, encodeWith, paramBytes, formatOf, wordBytes_assemble32, halfBytes_assemble16]

theorem decodeWith_frame {b : Byte} {o : Op} (ho : opOfWith code b = some o) (p1 p2 p3 p4 : Byte) (rest : List Byte) :
    decodeWith code (b :: (paramBytes o p1 p2 p3 p4 ++ rest)) = .ok (frameOf o p1 p2 p3 p4, rest) := by
  by_cases hf : formatOf o = .imm
  · simp only [decodeWith, ho, hf, paramBytes, if_true, List.nil_append, frameOf_immediate hf p1 p2 p3 p4]
  · simp only [paramBytes, hf, if_false]
    exact decodeWith_parameterized ho hf p1 p2 p3 p4 rest

theorem frameOf_wellFormed (o : Op) (p1 p2 p3 p4 : Byte) : (frameOf o p1 p2 p3 p4).wellFormedWith code = true := by
  cases o <;> rfl

/-- Every instruction is `unknown` or a frame of a known opcode. -/
theorem Instr.unknown_or_frameOf (i : Instr) :
    (∃ b, i = .unknown b) ∨ ∃ o p1 p2 p3 p4, i = frameOf o p1 p2 p3 p4 := by
  have known {j : Instr} (o : Op) (p1 p2 p3 p4 : Byte) (h : frameOf o p1 p2 p3 p4 = j) :
      (∃ b, j = .unknown b) ∨ ∃ o p1 p2 p3 p4, j = frameOf o p1 p2 p3 p4 :=
    .inr ⟨o, p1, p2, p3, p4, h.symm⟩
  have word {mk : Word → Instr} (o : Op) (w : Word)
      (h : ∀ p1 p2 p3 p4, frameOf o p1 p2 p3 p4 = mk (assemble32 p1 p2 p3 p4)) :
      (∃ b, mk w = .unknown b) ∨ ∃ o p1 p2 p3 p4, mk w = frameOf o p1 p2 p3 p4 :=
    known o _ _ _ _ ((h _ _ _ _).trans (congrArg mk (assemble32_wordBytes w)))
  cases i with
  | unknown b => exact .inl ⟨b, rfl⟩
  | reset => exact known .reset 0 0 0 0 rfl
  | arm => exact known .arm 0 0 0 0 rfl
  | queryId => exact known .queryId 0 0 0 0 rfl
  | queryMetadata => exact known .queryMetadata 0 0 0 0 rfl
  | xon => exact known .xon 0 0 0 0 rfl
  | xoff => exact known .xoff 0 0 0 0 rfl
  | setCaptureSize a b =>
    exact known .setCaptureSize _ _ _ _ (congrArg₂ _ (assemble16_halfBytes a) (assemble16_halfBytes b))
  | setDivider w => exact word .setDivider w fun _ _ _ _ => rfl
  | setFlags w => exact word .setFlags w fun _ _ _ _ => rfl
  | setDelayCount w => exact word .setDelayCount w fun _ _ _ _ => rfl
  | setReadCount w => exact word .setReadCount w fun _ _ _ _ => rfl
  | setTriggerMask0 w => exact word .setTriggerMask0 w fun _ _ _ _ => rfl
  | setTriggerValue0 w => exact word .setTriggerValue0 w fun _ _ _ _ => rfl
  | setTriggerConfig0 w => exact word .setTriggerConfig0 w fun _ _ _ _ => rfl
  | setTriggerMask1 w => exact word .setTriggerMask1 w fun _ _ _ _ => rfl
  | setTriggerValue1 w => exact word .setTriggerValue1 w fun _ _ _ _ => rfl
  | setTriggerConfig1 w => exact word .setTriggerConfig1 w fun _ _ _ _ => rfl
  | setTriggerMask2 w => exact word .setTriggerMask2 w fun _ _ _ _ => rfl
  | setTriggerValue2 w => exact word .setTriggerValue2 w fun _ _ _ _ => rfl
  | setTriggerConfig2 w => exact word .setTriggerConfig2 w fun _ _ _ _ => rfl
  | setTriggerMask3 w => exact word .setTriggerMask3 w fun _ _ _ _ => rfl
  | setTriggerValue3 w => exact word .setTriggerValue3 w fun _ _ _ _ => rfl
  | setTriggerConfig3 w => exact word .setTriggerConfig3 w fun _ _ _ _ => rfl

/-! ## The round trip -/

/-- The round trip for a well-formed instruction, under any map that gives two opcodes two bytes. -/
theorem decodeWith_encodeWith (hinj : ∀ o o', code o = code o' → o = o') {i : Instr}
    (hi : i.wellFormedWith code = true) (rest : List Byte) :
    decodeWith code (encodeWith code i ++ rest) = .ok (i, rest) := by
  obtain ⟨b, rfl⟩ | ⟨o, p1, p2, p3, p4, rfl⟩ := i.unknown_or_frameOf
  · have hb : opOfWith code b = none := by simpa [Instr.wellFormedWith] using hi
    simp only [encodeWith, List.cons_append, List.nil_append, decodeWith, hb]
  · rw [encodeWith_frameOf, List.cons_append]
    exact decodeWith_frame (opOfWith_code hinj o) p1 p2 p3 p4 rest

/-- Settles O20: the round trip at the SUMP map. -/
theorem decodeOfEncodeIsTheFrame : Obligations.DecodeOfEncodeIsTheFrame :=
  fun _ rest hi => decodeWith_encodeWith opcodeOf_injective hi rest

/-- An instruction is well formed when its byte, if it is `unknown`, is no opcode's. -/
theorem wellFormedWith_of_unknown {i : Instr} (h : ∀ b, i = .unknown b → ∀ o, code o ≠ b) :
    i.wellFormedWith code = true := by
  obtain ⟨b, rfl⟩ | ⟨o, p1, p2, p3, p4, rfl⟩ := i.unknown_or_frameOf
  · simp only [Instr.wellFormedWith, opOfWith_eq_none (h b rfl), Option.isNone_none]
  · exact frameOf_wellFormed o p1 p2 p3 p4

/-- Settles O22: a byte outside the map makes `unknown` well formed. -/
theorem roundTripForAnyOpcodeMap : Obligations.RoundTripForAnyOpcodeMap :=
  fun _ hinj _ rest hi => decodeWith_encodeWith hinj (wellFormedWith_of_unknown hi) rest

/-- What the decoder reads: a byte that is no opcode's, or the frame of a known opcode. -/
theorem decodeWith_eq_ok {bytes rest : List Byte} {i : Instr} (h : decodeWith code bytes = .ok (i, rest)) :
    (∃ b, bytes = b :: rest ∧ i = .unknown b ∧ opOfWith code b = none) ∨
    ∃ o p1 p2 p3 p4, opOfWith code (code o) = some o ∧ i = frameOf o p1 p2 p3 p4 ∧
      bytes = code o :: (paramBytes o p1 p2 p3 p4 ++ rest) := by
  cases bytes with
  | nil => simp [decodeWith] at h
  | cons b tail =>
    cases ho : opOfWith code b with
    | none =>
      simp only [decodeWith, ho] at h
      cases h
      exact .inl ⟨b, rfl, rfl, ho⟩
    | some o =>
      obtain rfl := opOfWith_eq_some ho
      refine .inr ⟨o, ?_⟩
      by_cases hf : formatOf o = .imm
      · simp only [decodeWith, ho, hf] at h
        cases h
        exact ⟨0, 0, 0, 0, ho, rfl, by simp [paramBytes, hf]⟩
      · rcases tail with _ | ⟨p1, _ | ⟨p2, _ | ⟨p3, _ | ⟨p4, tail⟩⟩⟩⟩
        case cons.cons.cons.cons =>
          rw [decodeWith_parameterized ho hf] at h
          cases h
          exact ⟨p1, p2, p3, p4, ho, rfl, by simp [paramBytes, hf]⟩
        all_goals
          have hp : parameterizedWith code (code o) = true := by simp [parameterizedWith, ho, hf]
          rw [decodeWith_truncated hp (by simp)] at h
          cases h

/-- Settles O21: the bytes of both kinds of frame the decoder reads are those the encoder writes. -/
theorem encodeOfDecodeIsTheBytes : Obligations.EncodeOfDecodeIsTheBytes := by
  intro code bytes rest i h
  obtain ⟨b, rfl, rfl, hb⟩ | ⟨o, p1, p2, p3, p4, _, rfl, rfl⟩ := decodeWith_eq_ok h
  · exact ⟨by simp [Instr.wellFormedWith, hb], rfl⟩
  · exact ⟨frameOf_wellFormed o p1 p2 p3 p4, by rw [encodeWith_frameOf, List.cons_append]⟩

/-! ## The length of a frame -/

/-- A byte is PARAMETERIZED when it is the byte of an opcode of a five-byte format. -/
theorem parameterized_iff {b : Byte} : parameterized b = true ↔ ∃ o, formatOf o ≠ .imm ∧ opcodeOf o = b := by
  constructor
  · intro h
    cases ho : opOf b with
    | none => simp [parameterized, parameterizedWith, opOfWith_sump, ho] at h
    | some o => exact ⟨o, by simpa [parameterized, parameterizedWith, opOfWith_sump, ho] using h, opOf_eq_some.1 ho⟩
  · rintro ⟨o, hf, rfl⟩
    rw [parameterized, parameterizedWith_code opcodeOf_injective, decide_eq_true hf]

/-- The seventeen opcodes of five-byte frames, by their SUMP values (30_encoding.md section 4). -/
theorem parameterized_values :
    (allOps.filter fun o => decide (formatOf o ≠ .imm)).map opcodeOf =
      [0x80, 0x81, 0x82, 0x83, 0x84, 0xC0, 0xC1, 0xC2, 0xC4, 0xC5, 0xC6, 0xC8, 0xC9, 0xCA, 0xCC, 0xCD, 0xCE] := by
  decide

/-- The decoder on a PARAMETERIZED byte with at least four bytes after it. -/
theorem decodeWith_five {b : Byte} (h : parameterizedWith code b = true) {rest : List Byte} (hl : 4 ≤ rest.length) :
    ∃ i, decodeWith code (b :: rest) = .ok (i, rest.drop 4) := by
  obtain ⟨p1, p2, p3, p4, tail, rfl⟩ : ∃ p1 p2 p3 p4 tail, rest = p1 :: p2 :: p3 :: p4 :: tail := by
    rcases rest with _ | ⟨p1, _ | ⟨p2, _ | ⟨p3, _ | ⟨p4, tail⟩⟩⟩⟩
    case cons.cons.cons.cons => exact ⟨p1, p2, p3, p4, tail, rfl⟩
    all_goals simp at hl
  cases ho : opOfWith code b with
  | none => simp [parameterizedWith, ho] at h
  | some o => exact ⟨_, decodeWith_parameterized ho (by simpa [parameterizedWith, ho] using h) p1 p2 p3 p4 tail⟩

/-- Settles O23: the class of the first byte is that of an opcode's format, and the decoder follows the class. -/
theorem firstByteTellsFrameLength : Obligations.FirstByteTellsFrameLength := by
  intro b rest
  refine ⟨?_, fun h => decodeWith_immediate h rest, fun h => decodeWith_five h, fun h => decodeWith_truncated h⟩
  rw [parameterized_iff, ← parameterized_values]
  simp only [List.mem_map, List.mem_filter, mem_allOps, true_and, decide_eq_true_eq]

/-- Settles O19: twelve runs of the decoder. -/
theorem writtenOutFramesDecode : Obligations.WrittenOutFramesDecode :=
  ⟨rfl, rfl, rfl, rfl, rfl, rfl, rfl, rfl, rfl, rfl, rfl, rfl⟩

end Sys2Proof
end

section
/-! PROOFS. O57, O56, O2: the invariant of the block (43_run_length_encoder.md section 4, 42_capture_state_machine.md
section 6, 10_state.md sections 2 to 7).

The samples a buffer stands for are followed first: a poll appends one, whether it counts in the current run or starts
the next. From this each part of `BlockInv` is kept by the step that moves it. -/

namespace Sys2Proof.Machine

/-! ## The samples a buffer stands for -/

theorem length_samplesUpTo (m : Memory) : ∀ j, (samplesUpTo m j).length = countUpTo m j
  | 0 => by simp [samplesUpTo, countUpTo]
  | j + 1 => by simp [samplesUpTo, countUpTo, length_samplesUpTo m j]

theorem samplesUpTo_congr {m m' : Memory} : ∀ {j : Nat}, (∀ i, i ≤ j → m'.read i = m.read i) →
    samplesUpTo m' j = samplesUpTo m j
  | 0, h => by simp only [samplesUpTo, h 0 (Nat.le_refl 0)]
  | j + 1, h => by
    have hbelow : samplesUpTo m' j = samplesUpTo m j := samplesUpTo_congr fun i hi => h i (Nat.le_succ_of_le hi)
    simp only [samplesUpTo, hbelow, h (j + 1) (Nat.le_refl _)]

/-- One more sample in the last run. -/
theorem samplesUpTo_counted {m m' : Memory} {j : Nat} (hother : ∀ i, i ≠ j → m'.read i = m.read i)
    (hlast : m'.read j = ⟨(m.read j).value, (m.read j).count + 1⟩) :
    samplesUpTo m' j = samplesUpTo m j ++ [(m.read j).value] := by
  cases j with
  | zero => simp only [samplesUpTo, hlast, List.replicate_succ']
  | succ j =>
    have hbelow : samplesUpTo m' j = samplesUpTo m j :=
      samplesUpTo_congr fun i hi => hother i (Nat.ne_of_lt (Nat.lt_succ_of_le hi))
    simp only [samplesUpTo, hbelow, hlast, List.replicate_succ', List.append_assoc]

/-- A run of one sample after the last one. -/
theorem samplesUpTo_opened {m m' : Memory} {j : Nat} {x : Byte} (hother : ∀ i, i ≠ j + 1 → m'.read i = m.read i)
    (hnew : m'.read (j + 1) = ⟨x, 1⟩) : samplesUpTo m' (j + 1) = samplesUpTo m j ++ [x] := by
  have hbelow : samplesUpTo m' j = samplesUpTo m j :=
    samplesUpTo_congr fun i hi => hother i (Nat.ne_of_lt (Nat.lt_succ_of_le hi))
  simp only [samplesUpTo, hbelow, hnew, List.replicate_one]

theorem countUpTo_mono (m : Memory) {i j : Nat} (hij : i ≤ j) : countUpTo m i ≤ countUpTo m j := by
  induction hij with
  | refl => exact Nat.le_refl _
  | step _ ih => exact Nat.le_trans ih (Nat.le_add_right _ _)

/-! ## The capture -/

/-- The run-length invariants after the first sample (43_run_length_encoder.md R181). -/
theorem CaptureOk.first {m : Memory} (hwf : m.wf = true) (budget : Nat) (x : Byte) :
    CaptureOk budget ⟨m.write 0 ⟨x, 1⟩, 0, x, 1⟩ := by
  have hread : (m.write 0 ⟨x, 1⟩).read 0 = ⟨x, 1⟩ := Memory.read_write_self _ _ hwf
  exact {
    cursor_lt := Nat.zero_lt_succ _
    count_pos := fun j hj => by rw [Nat.le_zero.1 hj, hread]
    adjacent_ne := fun j hj => absurd hj (Nat.not_lt_zero j)
    last_value := congrArg Run.value hread
    sum_eq := congrArg Run.count hread
    taken_le := Nat.le_max_left _ _
    last_slot := fun _ => congrArg Run.count hread }

/-- A sample equal to `prev`, below the budget and short of the last slot, keeps the run-length invariants. -/
theorem CaptureOk.counted {budget : Nat} {c : Capture} (h : CaptureOk budget c) (hwf : c.runs.wf = true)
    (hbudget : c.taken < budget) (hslot : c.cursor ≠ Config.bufferSize - 1) : CaptureOk budget (c.counted c.prev) := by
  have hlast := c.counted_read_cursor c.prev hwf
  have hother : ∀ i, i ≠ c.cursor → (c.counted c.prev).runs.read i = c.runs.read i :=
    fun i hi => c.counted_read_ne c.prev hi
  have hvalue : ∀ i, ((c.counted c.prev).runs.read i).value = (c.runs.read i).value := fun i => by
    by_cases hi : i = c.cursor
    · rw [hi, hlast]
    · rw [hother i hi]
  have hsamples := samplesUpTo_counted hother hlast
  exact {
    cursor_lt := h.cursor_lt
    count_pos := fun j hj => by
      by_cases hi : j = c.cursor
      · rw [hi, hlast]
        exact Nat.le_add_left 1 _
      · rw [hother j hi]
        exact h.count_pos j hj
    adjacent_ne := fun j hj => by
      rw [hvalue, hvalue]
      exact h.adjacent_ne j hj
    last_value := (hvalue c.cursor).trans h.last_value
    sum_eq := by
      calc countUpTo (c.counted c.prev).runs c.cursor
          = countUpTo c.runs c.cursor + 1 := by simp only [← length_samplesUpTo, hsamples, List.length_append,
              List.length_singleton]
        _ = c.taken + 1 := by rw [h.sum_eq]
    taken_le := Nat.le_trans hbudget (Nat.le_max_right _ _)
    last_slot := fun hcursor => absurd hcursor hslot }

/-- A sample that differs from `prev`, below the budget, keeps the run-length invariants in the buffer `m` that holds its
run. -/
theorem CaptureOk.opened {budget : Nat} {c : Capture} {m : Memory} {x : Byte} (h : CaptureOk budget c)
    (hx : x ≠ c.prev) (hbudget : c.taken < budget) (hslot : c.cursor + 1 < Config.bufferSize)
    (hnew : m.read (c.cursor + 1) = ⟨x, 1⟩) (hother : ∀ i, i ≠ c.cursor + 1 → m.read i = c.runs.read i) :
    CaptureOk budget ⟨m, c.cursor + 1, x, c.taken + 1⟩ := by
  have hbelow : ∀ i, i ≤ c.cursor → m.read i = c.runs.read i := fun i hi => hother i (by omega)
  exact {
    cursor_lt := hslot
    count_pos := fun j hj => by
      rcases Nat.le_succ_iff.1 hj with hj | rfl
      · simp only [hbelow j hj]
        exact h.count_pos j hj
      · simp only [hnew, Nat.le_refl]
    adjacent_ne := fun j hj => by
      rcases Nat.lt_succ_iff_lt_or_eq.1 hj with hj | rfl
      · simp only [hbelow j (Nat.le_of_lt hj), hbelow (j + 1) hj]
        exact h.adjacent_ne j hj
      · simp only [hbelow c.cursor (Nat.le_refl _), hnew, h.last_value]
        exact hx.symm
    last_value := congrArg Run.value hnew
    sum_eq := by
      calc countUpTo m (c.cursor + 1)
          = countUpTo c.runs c.cursor + 1 := by simp only [← length_samplesUpTo, samplesUpTo_opened hother hnew,
              List.length_append, List.length_singleton]
        _ = c.taken + 1 := by rw [h.sum_eq]
    taken_le := Nat.le_trans hbudget (Nat.le_max_right _ _)
    last_slot := fun _ => congrArg Run.count hnew }

/-! ## The report -/

theorem remaining_of_full (c : Capture) (j x : Nat) :
    remaining c ⟨j, (c.runs.read j).count, x⟩ = countUpTo c.runs j := by
  cases j <;> simp [remaining, countUpTo, Nat.add_comm]

theorem remaining_le_taken {budget : Nat} {l : TriggerState} {c : Capture} {r : Report} (hc : CaptureOk budget c)
    (hr : ReportOk l c r) : remaining c r ≤ c.taken := by
  calc remaining c r ≤ remaining c ⟨r.j, (c.runs.read r.j).count, 0⟩ := Nat.add_le_add_right hr.k_le _
    _ = countUpTo c.runs r.j := remaining_of_full c r.j 0
    _ ≤ countUpTo c.runs c.cursor := countUpTo_mono _ hr.j_le
    _ = c.taken := hc.sum_eq

/-- The report's set-up (44_decimation_filter.md R201): nothing is walked yet. -/
theorem ReportOk.init {budget : Nat} {c : Capture} (hc : CaptureOk budget c) (l : TriggerState) :
    ReportOk l c ⟨c.cursor, (c.runs.read c.cursor).count, 0⟩ where
  j_le := Nat.le_refl _
  k_le := Nat.le_refl _
  c_eq := by rw [remaining_of_full, hc.sum_eq, Nat.sub_self, Nat.zero_mod]

/-- Walking a sample moves `rep_c` on by one, round at `cap_rate` (44_decimation_filter.md R202). -/
theorem ReportOk.walk {budget : Nat} {l : TriggerState} {c : Capture} {r : Report} (hc : CaptureOk budget c)
    (hr : ReportOk l c r) (hk : 0 < r.k) : ReportOk l c ⟨r.j, r.k - 1, (r.c + 1) % l.capRate⟩ where
  j_le := hr.j_le
  k_le := Nat.le_trans (Nat.sub_le _ _) hr.k_le
  c_eq := by
    have hle := remaining_le_taken hc hr
    have hwalked : c.taken - remaining c ⟨r.j, r.k - 1, (r.c + 1) % l.capRate⟩ = c.taken - remaining c r + 1 := by
      simp only [remaining] at hle ⊢
      omega
    rw [hwalked, hr.c_eq, Nat.mod_add_mod]

/-- The carry within a group: short of `cap_rate` the count goes on. -/
theorem ReportOk.c_lt {l : TriggerState} {c : Capture} {r : Report} (hr : ReportOk l c r) (hl : LatchesOk l) :
    r.c < l.capRate := by
  rw [hr.c_eq]
  exact Nat.mod_lt _ hl.rate_pos

/-- The next older run, with the counter carried over, walks no sample. -/
theorem ReportOk.nextRun {l : TriggerState} {c : Capture} {r : Report} (hr : ReportOk l c r) (hk : r.k = 0)
    (hj : 0 < r.j) : ReportOk l c ⟨r.j - 1, (c.runs.read (r.j - 1)).count, r.c⟩ where
  j_le := Nat.le_trans (Nat.sub_le _ _) hr.j_le
  k_le := Nat.le_refl _
  c_eq := by
    obtain ⟨j, hj⟩ : ∃ j, r.j = j + 1 := ⟨r.j - 1, by omega⟩
    have hsame : remaining c r = countUpTo c.runs j := by simp only [remaining, hk, hj, Nat.zero_add]
    rw [remaining_of_full, hr.c_eq, hsame, hj, Nat.add_sub_cancel]

/-! ## The block -/

/-- In IDLE the invariant is about the buffer, the configuration and the framer alone. -/
theorem BlockInv.of_idle {s : State} (hq : s.seq = .idle) (hmem : s.cap.runs.wf = true) (hcfg : ConfigOk s.cfg)
    (hframer : FramerOk s.params.opcodes s.frame) : BlockInv s where
  memory := hmem
  config := hcfg
  framer := hframer
  latches := fun h => absurd hq h
  no_frame := fun h => absurd hq h
  waiting := fun h => by simp [hq] at h
  capture := fun h => by simp [hq] at h
  report := fun h => by simp [hq] at h

variable {s t : State}

/-- The invariant does not speak of the fault register. -/
theorem BlockInv.raiseFault (h : BlockInv s) (r : FaultReg) : BlockInv (s.raiseFault r) :=
  ⟨h.memory, h.config, h.framer, h.latches, h.no_frame, h.waiting, h.capture, h.report⟩

/-- The invariant does not speak of the environment. -/
theorem BlockInv.withEnv (h : BlockInv s) (e : Env) : BlockInv (s.withEnv e) :=
  ⟨h.memory, h.config, h.framer, h.latches, h.no_frame, h.waiting, h.capture, h.report⟩

/-- The invariant does not speak of `out`. -/
theorem BlockInv.writeOut (h : BlockInv s) (bs : List Byte) : BlockInv (s.writeOut bs) :=
  ⟨h.memory, h.config, h.framer, h.latches, h.no_frame, h.waiting, h.capture, h.report⟩

theorem BlockInv.fetch (h : BlockInv s) (hq : s.seq = .idle) :
    BlockInv (fetch s).1 ∧ (fetch s).1.seq = .idle ∧ ((fetch s).2 ≠ none → (fetch s).1.frame = []) := by
  obtain ⟨c, f, hfetch, hok, hclear⟩ := fetch_cases s
  rw [hfetch]
  exact ⟨.of_idle hq h.memory h.config (hok h.framer), hq, hclear⟩

/-- ARM with an aligned framer starts a capture with its latches in their ranges, or raises a fault. -/
theorem BlockInv.execArm (h : BlockInv s) (hframe : s.frame = []) (ht : execArm s = .next t) : BlockInv t := by
  rcases execArm_cases s with ⟨_, he⟩ | ⟨_, _, he⟩ | ⟨hvalid, _, he⟩ <;> rw [he] at ht <;> cases ht
  · exact h.raiseFault _
  · exact h.raiseFault _
  · have hlatches := armedLatches_ok h.config hvalid
    cases hwait : waitsForTrigger (armedLatches s.cfg) <;>
    exact {
      memory := h.memory
      config := h.config
      framer := h.framer
      latches := fun _ => hlatches
      no_frame := fun _ => hframe
      waiting := by simp [hwait]
      capture := by simp
      report := by simp }

theorem BlockInv.exec {i : Instr} (h : BlockInv s) (hq : s.seq = .idle) (hframe : s.frame = [])
    (ht : exec i s = .next t) : BlockInv t := by
  by_cases hi : i = .arm
  · subst hi
    exact h.execArm hframe ht
  · obtain ⟨c, n, he, _⟩ | ⟨c, bs, he, hcfg, _⟩ := exec_other hi s <;> rw [he] at ht <;> cases ht
    · exact h.raiseFault _
    · exact .of_idle hq h.memory (hcfg h.config) h.framer

theorem BlockInv.idleStep (h : BlockInv s) (hq : s.seq = .idle) (ht : idleStep s = .next t) : BlockInv t := by
  obtain ⟨hinv, hidle, hclear⟩ := h.fetch hq
  unfold Machine.idleStep at ht
  split at ht
  case h_1 s' hfetch =>
    rw [hfetch] at hinv
    cases ht
    exact hinv
  case h_2 s' i hfetch =>
    rw [hfetch] at hinv hidle hclear
    exact hinv.exec hidle (hclear (by simp)) ht

theorem BlockInv.trigWaitStep (h : BlockInv s) (hq : s.seq = .trigWait) (ht : trigWaitStep s = .next t) :
    BlockInv t := by
  have hbusy : s.seq ≠ .idle := by simp [hq]
  obtain ⟨ps, d, q, he, hdest⟩ := trigWaitStep_cases s
  rw [he] at ht
  cases ht
  rcases hdest with rfl | rfl
  · exact h.withEnv _
  · exact {
      memory := h.memory
      config := h.config
      framer := h.framer
      latches := fun _ => h.latches hbusy
      no_frame := fun _ => h.no_frame hbusy
      waiting := by simp
      capture := by simp
      report := by simp }

/-- Entering or staying in CAP_LOOP with a capture that meets the run-length invariants. -/
theorem BlockInv.capLoop (h : BlockInv s) (hbusy : s.seq ≠ .idle) {c : Capture} (hwf : c.runs.wf = true)
    (hc : CaptureOk s.ts.capBudget c) : BlockInv ((s.withSeq .capLoop).withCap c) where
  memory := hwf
  config := h.config
  framer := h.framer
  latches := fun _ => h.latches hbusy
  no_frame := fun _ => h.no_frame hbusy
  waiting := by simp
  capture := fun _ => hc
  report := by simp

theorem BlockInv.capFirstStep (h : BlockInv s) (hq : s.seq = .capFirst) (ht : capFirstStep s = .next t) :
    BlockInv t := by
  have hbusy : s.seq ≠ .idle := by simp [hq]
  obtain ⟨d, x, ⟨_, he⟩ | ⟨_, he⟩⟩ := capFirstStep_cases s <;> rw [he] at ht <;> cases ht
  · refine (h.withEnv _).capLoop ?_ (Memory.wf_write _ h.memory (by decide)) (.first h.memory _ x)
    exact hbusy
  · exact (h.withEnv _).raiseFault _

theorem BlockInv.rleUpdate {x : Byte} (h : BlockInv s) (hq : s.seq = .capLoop) (hbudget : s.cap.taken < s.ts.capBudget)
    (hslot : s.cap.cursor ≠ Config.bufferSize - 1) (ht : rleUpdate x s = .next t) : BlockInv t := by
  have hbusy : s.seq ≠ .idle := by simp [hq]
  have hcap : CaptureOk s.ts.capBudget s.cap := h.capture (.inl hq)
  have hstay : ∀ c : Capture, s.withCap c = (s.withSeq .capLoop).withCap c := fun c => by rw [← hq]; rfl
  obtain (rfl | rfl) | ⟨rfl, hcur, rfl⟩ | ⟨hx, hnext, m, rfl, hnew, hother⟩ := rleUpdate_cases ht
  · exact h.raiseFault _
  · exact h.raiseFault _
  · rw [hstay]
    exact h.capLoop hbusy (Memory.wf_write _ h.memory hcur) (hcap.counted h.memory hbudget hslot)
  · obtain ⟨hwf, hread⟩ := hnew h.memory
    rw [hstay]
    exact h.capLoop hbusy hwf (hcap.opened hx hbudget hnext hread hother)

theorem BlockInv.reportInit (h : BlockInv s) (hq : s.seq = .capLoop) (ht : reportInit s = .next t) : BlockInv t := by
  have hbusy : s.seq ≠ .idle := by simp [hq]
  have hcap : CaptureOk s.ts.capBudget s.cap := h.capture (.inl hq)
  obtain ⟨_, rfl⟩ := reportInit_eq_next ht
  exact {
    memory := h.memory
    config := h.config
    framer := h.framer
    latches := fun _ => h.latches hbusy
    no_frame := fun _ => h.no_frame hbusy
    waiting := by simp
    capture := fun _ => hcap
    report := fun _ => .init hcap _ }

theorem BlockInv.capLoopStep (h : BlockInv s) (hq : s.seq = .capLoop) (ht : capLoopStep s = .next t) : BlockInv t := by
  obtain ⟨d, stop, ⟨_, he⟩ | ⟨hgo, x, he⟩⟩ := capLoopStep_cases s <;> rw [he] at ht
  · refine (h.withEnv _).reportInit ?_ ht
    exact hq
  · obtain ⟨_, hbudget, hslot⟩ := boundaryStop_eq_false hgo
    refine (h.withEnv _).rleUpdate ?_ ?_ ?_ ht
    · exact hq
    · exact hbudget
    · exact hslot

/-- New report registers that meet their part of the invariant. -/
theorem BlockInv.withRep (h : BlockInv s) {r : Report} (hr : s.seq = .report → ReportOk s.ts s.cap r) :
    BlockInv (s.withRep r) :=
  ⟨h.memory, h.config, h.framer, h.latches, h.no_frame, h.waiting, h.capture, hr⟩

theorem BlockInv.reportStep (h : BlockInv s) (hq : s.seq = .report) (ht : reportStep s = .next t) : BlockInv t := by
  have hlatches : LatchesOk s.ts := h.latches (by simp [hq])
  have hrep : ReportOk s.ts s.cap s.rep := h.report hq
  have hwalk := fun hk => hrep.walk (h.capture (.inr hq)) hk
  obtain ⟨_, rfl⟩ | ⟨_, _, d, rfl⟩ | ⟨hk, hgroup, d, rfl⟩ | ⟨hk, hshort, rfl⟩ | ⟨hk, hj, rfl⟩ | ⟨_, _, rfl⟩ :=
    reportStep_cases ht
  case inl => exact h.raiseFault _
  case inr.inl => exact h.withEnv _
  case inr.inr.inl =>
    have hzero : (s.rep.c + 1) % s.ts.capRate = 0 := by rw [hgroup, Nat.mod_self]
    exact ((h.withEnv _).writeOut _).withRep fun _ => hzero ▸ hwalk hk
  case inr.inr.inr.inl =>
    have hlt := hrep.c_lt hlatches
    have hsucc : (s.rep.c + 1) % s.ts.capRate = s.rep.c + 1 := Nat.mod_eq_of_lt (by omega)
    exact h.withRep fun _ => by simpa only [hsucc] using hwalk hk
  case inr.inr.inr.inr.inl => exact h.withRep fun _ => hrep.nextRun hk hj
  case inr.inr.inr.inr.inr => exact .of_idle rfl h.memory h.config h.framer

/-- Settles O57: each rule of the sequencer keeps the invariant. -/
theorem everyStepKeepsTheInvariant : Obligations.EveryStepKeepsTheInvariant := by
  intro s t h ht
  rw [step_unfaulted (fault_none_of_step ht)] at ht
  cases hq : s.seq <;> rw [hq] at ht
  case idle => exact h.idleStep hq ht
  case trigWait => exact h.trigWaitStep hq ht
  case capFirst => exact h.capFirstStep hq ht
  case capLoop => exact h.capLoopStep hq ht
  case report => exact h.reportStep hq ht

/-! ## Progress -/

theorem idleStep_next (s : State) : ∃ t, idleStep s = .next t := by
  unfold idleStep
  split
  · exact ⟨_, rfl⟩
  · exact exec_next _ _

/-- The boundary test stops the capture before a poll could need a slot that does not exist. -/
theorem capLoopStep_next (hcap : CaptureOk s.ts.capBudget s.cap) : ∃ t, capLoopStep s = .next t := by
  obtain ⟨d, stop, ⟨_, he⟩ | ⟨hgo, x, he⟩⟩ := capLoopStep_cases s <;> rw [he]
  · exact ⟨_, reportInit_of_lt hcap.cursor_lt⟩
  · obtain ⟨_, _, hslot⟩ := boundaryStop_eq_false hgo
    have hlt := hcap.cursor_lt
    exact rleUpdate_next x (by simp only [State.withEnv_cap]; omega)

/-- Settles O56: the slots that a capture and a report name exist. -/
theorem unfaultedBlockAlwaysHasANextState : Obligations.UnfaultedBlockAlwaysHasANextState := by
  intro s h hf
  rw [step_unfaulted hf]
  cases hq : s.seq
  case idle => exact idleStep_next s
  case trigWait =>
    obtain ⟨_, _, _, he, _⟩ := trigWaitStep_cases s
    exact ⟨_, he⟩
  case capFirst => obtain ⟨_, _, ⟨_, he⟩ | ⟨_, he⟩⟩ := capFirstStep_cases s <;> exact ⟨_, he⟩
  case capLoop => exact capLoopStep_next (h.capture (.inl hq))
  case report => exact reportStep_next (Nat.lt_of_le_of_lt (h.report hq).j_le (h.capture (.inr hq)).cursor_lt)

/-! ## Power-on -/

theorem blockInv_powerOn (p : Params) {c : CfgReset} (hc : c.inRange = true) : BlockInv (State.powerOn p c) := by
  simp only [CfgReset.inRange, Bool.and_eq_true, decide_eq_true_eq] at hc
  obtain ⟨hcount, hdelay⟩ := hc
  have hcfg : ConfigOk (CaptureConfig.powerOn c) := {
    count_le := hcount
    delay_le := hdelay
    rate_pos := fun h => Bool.noConfusion h
    rate_le := fun h => Bool.noConfusion h }
  exact .of_idle rfl rfl hcfg ⟨Nat.zero_le _, by simp [State.powerOn]⟩

/-- Settles O2: power-on is idle and aligned, with an empty buffer and no rate. -/
theorem invariantAtPowerOn : Obligations.InvariantAtPowerOn :=
  ⟨fun p _ hc => blockInv_powerOn p hc, blockInv_powerOn _ (by decide)⟩

end Sys2Proof.Machine
end

section
/-! PROOFS. O24, O25, O28, O58, O29: the framer, from one byte to whole frames (30_encoding.md section 3,
70_reset_and_hazards.md section 2).

A byte read either completes a frame under the block's map, and the step is the dispatch of it, or is kept. Two
inductions follow: over the parameter bytes that a frame still lacks, and over RESET bytes in an aligned framer. -/

namespace Sys2Proof

variable {code : Op → Byte}

theorem parameterizedWith_of_unknown {b : Byte} (h : opOfWith code b = none) : parameterizedWith code b = false := by
  simp only [parameterizedWith, h]

theorem parameterizedWith_of_op {b : Byte} {o : Op} (h : opOfWith code b = some o) :
    parameterizedWith code b = decide (formatOf o ≠ .imm) := by
  simp only [parameterizedWith, h]

/-- The frame of a well-formed instruction: one byte, or a PARAMETERIZED byte and four more. -/
theorem encodeWith_eq_cons (hinj : ∀ o o', code o = code o' → o = o') (i : Instr) :
    ∃ b ps, encodeWith code i = b :: ps ∧ (ps = [] ∨ parameterizedWith code b = true ∧ ps.length = 4) := by
  obtain ⟨b, rfl⟩ | ⟨o, p1, p2, p3, p4, rfl⟩ := i.unknown_or_frameOf
  · exact ⟨b, [], rfl, .inl rfl⟩
  · refine ⟨code o, paramBytes o p1 p2 p3 p4, encodeWith_frameOf o p1 p2 p3 p4, ?_⟩
    by_cases hf : formatOf o = .imm
    · exact .inl (if_pos hf)
    · exact .inr ⟨by rw [parameterizedWith_code hinj, decide_eq_true hf], by rw [paramBytes, if_neg hf]; rfl⟩

/-- RESET is the first opcode of R78, so its byte is read as RESET even where another opcode shares it
(notes/assumptions/13.md). -/
theorem decodeWith_reset (code : Op → Byte) : decodeWith code [code .reset] = .ok (.reset, []) := by
  have hreset : opOfWith code (code .reset) = some .reset := by simp [opOfWith, allOps]
  exact decodeWith_frame hreset 0 0 0 0 []

namespace Machine

/-! ## One byte read -/

theorem fetch_byte {s : State} {b : Byte} {rest : List LinkEvent} (hcmd : s.cmd = .byte b :: rest) :
    fetch s = takeByte b (s.withCmd rest) := by
  simp only [fetch, hcmd]

/-- Clearing an aligned framer changes nothing. -/
theorem withFrame_nil_of_aligned {s : State} (hframe : s.frame = []) (c : List LinkEvent) :
    (s.withCmd c).withFrame [] = s.withCmd c := by
  rw [← hframe]
  rfl

/-- The byte that completes a frame: the step is the dispatch of it, with the framer cleared. -/
theorem step_of_completed {s : State} {b : Byte} {rest : List LinkEvent} {i : Instr} {tail : List Byte}
    (hready : Ready s) (hcmd : s.cmd = .byte b :: rest)
    (hdecode : decodeWith s.params.opcodes.byte (s.frame ++ [b]) = .ok (i, tail)) :
    step s = exec i ((s.withCmd rest).withFrame []) := by
  have htake : takeByte b (s.withCmd rest) = ((s.withCmd rest).withFrame [], some i) := by
    simp only [takeByte, State.withCmd_params, State.withCmd_frame, hdecode]
  rw [step_of_idle hready.no_fault hready.idle, idleStep, fetch_byte hcmd, htake]

/-- The byte that leaves a frame unfinished is kept, and nothing is dispatched. -/
theorem step_of_unfinished {s : State} {b : Byte} {rest : List LinkEvent} {e : DecodeError}
    (hready : Ready s) (hcmd : s.cmd = .byte b :: rest)
    (hdecode : decodeWith s.params.opcodes.byte (s.frame ++ [b]) = .error e) :
    step s = .next ((s.withCmd rest).withFrame (s.frame ++ [b])) := by
  have htake : takeByte b (s.withCmd rest) = ((s.withCmd rest).withFrame (s.frame ++ [b]), none) := by
    simp only [takeByte, State.withCmd_params, State.withCmd_frame, hdecode]
  exact step_of_incomplete_fetch hready ((fetch_byte hcmd).trans htake)

/-- Settles O24: the dispatching step, at a frame with nothing left over. -/
theorem stepDispatchesTheCompletedFrame : Obligations.StepDispatchesTheCompletedFrame :=
  fun _ _ _ _ hready hcmd hdecode => step_of_completed hready hcmd hdecode

/-- Settles O25: an opcode with fewer than four bytes after it is a truncated frame, whatever the bytes are. -/
theorem unfinishedFrameKeepsEveryByte : Obligations.UnfinishedFrameKeepsEveryByte := by
  intro s b rest hready hcmd hunfinished
  rcases hunfinished with ⟨hframe, hb⟩ | ⟨o, ps, hframe, ho, hlen⟩
  · exact step_of_unfinished hready hcmd (by rw [hframe]; exact decodeWith_truncated hb (by simp))
  · have hshort : (ps ++ [b]).length < 4 := by
      rw [List.length_append, List.length_singleton]
      omega
    exact step_of_unfinished hready hcmd (by rw [hframe]; exact decodeWith_truncated ho hshort)

/-! ## A whole frame -/

/-- The bytes that a PARAMETERIZED frame still lacks are taken one a step, and the last step dispatches it. -/
theorem steps_of_params {o : Byte} {i : Instr} {rest : List LinkEvent} (ps : List Byte) :
    ∀ {s : State} {qs : List Byte}, Ready s → s.frame = o :: qs →
      parameterizedWith s.params.opcodes.byte o = true → ps ≠ [] → qs.length + ps.length = 4 →
      s.cmd = ps.map .byte ++ rest → decodeWith s.params.opcodes.byte (s.frame ++ ps) = .ok (i, []) →
      steps ps.length s = exec i ((s.withCmd rest).withFrame []) := by
  induction ps with
  | nil => exact fun _ _ _ hne => absurd rfl hne
  | cons p ps ih =>
    intro s qs hready hframe ho _ hlen hcmd hdecode
    cases ps with
    | nil => exact (steps_one s).trans (step_of_completed hready hcmd hdecode)
    | cons p' ps =>
      simp only [List.length_cons] at hlen
      have hkept : step s = .next ((s.withCmd ((p' :: ps).map .byte ++ rest)).withFrame (s.frame ++ [p])) :=
        unfinishedFrameKeepsEveryByte s p _ hready hcmd (.inr ⟨o, qs, hframe, ho, by omega⟩)
      rw [List.length_cons, steps_succ hkept]
      refine ih (qs := qs ++ [p]) ⟨hready.idle, hready.no_fault⟩ ?_ ho (List.cons_ne_nil _ _) ?_ rfl ?_
      · simp only [State.withFrame_frame, hframe, List.cons_append]
      · simp only [List.length_append, List.length_cons, List.length_nil]
        omega
      · simpa using hdecode

/-- Settles O28: an immediate frame is dispatched at once; a parameterized one after its opcode is kept and its four
parameter bytes are taken. -/
theorem sentFrameIsDispatchedByItsLastByte : Obligations.SentFrameIsDispatchedByItsLastByte := by
  intro s i rest hready hframe hdistinct hi hcmd
  have hround := decodeWith_encodeWith hdistinct hi []
  obtain ⟨b, ps, hencode, hps⟩ := encodeWith_eq_cons hdistinct i
  rw [hencode, List.append_nil] at hround
  rw [hencode] at hcmd ⊢
  refine Eq.trans ?_ (congrArg (exec i) (withFrame_nil_of_aligned hframe rest))
  rcases hps with rfl | ⟨hb, hlen⟩
  · exact (steps_one s).trans (step_of_completed (rest := rest) hready hcmd (by rw [hframe]; exact hround))
  · have hkept : step s = .next ((s.withCmd (ps.map .byte ++ rest)).withFrame (s.frame ++ [b])) :=
      unfinishedFrameKeepsEveryByte s b _ hready hcmd (.inl ⟨hframe, hb⟩)
    rw [hframe] at hkept
    rw [List.length_cons, steps_succ hkept]
    exact steps_of_params ps (s := (s.withCmd (ps.map .byte ++ rest)).withFrame [b]) ⟨hready.idle, hready.no_fault⟩ rfl
      hb (by rintro rfl; cases hlen) (by simpa using hlen) rfl hround

/-! ## A placed frame -/

/-- What the decoder reads at the front of a byte list is the front frame alone. -/
theorem decodeWith_frontFrame {code : Op → Byte} {bytes rest : List Byte} {i : Instr}
    (h : decodeWith code bytes = .ok (i, rest)) : decodeWith code (frontFrame code bytes) = .ok (i, []) := by
  obtain ⟨b, rfl, rfl, hb⟩ | ⟨o, p1, p2, p3, p4, ho, rfl, rfl⟩ := decodeWith_eq_ok h
  · simp only [frontFrame, parameterizedWith_of_unknown hb, Bool.false_eq_true, if_false, decodeWith, hb]
  · have hfront : frontFrame code (code o :: (paramBytes o p1 p2 p3 p4 ++ rest)) =
        code o :: (paramBytes o p1 p2 p3 p4 ++ []) := by
      by_cases hf : formatOf o = .imm <;> simp [frontFrame, parameterizedWith_of_op ho, paramBytes, hf]
    rw [hfront]
    exact decodeWith_frame ho p1 p2 p3 p4 []

/-- A frame at the front of placed bytes is dispatched by the next step. -/
theorem step_placeFrame {s : State} {bytes rest : List Byte} {i : Instr}
    (h : decodeWith s.params.opcodes.byte bytes = .ok (i, rest)) :
    step (placeFrame bytes s) = exec i (((s.withFrame []).withSeq .idle).raiseFault .none) := by
  have hfront := decodeWith_frontFrame h
  rcases List.eq_nil_or_concat' (frontFrame s.params.opcodes.byte bytes) with hnil | ⟨init, last, hlast⟩
  · rw [hnil] at hfront
    cases hfront
  · have hplace : placeFrame bytes s =
        (((s.withFrame init).withCmd (.byte last :: s.cmd)).withSeq .idle).raiseFault .none := by
      simp only [placeFrame, hlast, List.dropLast_concat, List.getLast?_concat]
      rfl
    rw [hlast] at hfront
    rw [hplace]
    exact step_of_completed (rest := s.cmd) ⟨rfl, rfl⟩ rfl hfront

theorem decodeTableWord_eq_some {nbits w : Nat} {i : Instr} (h : decodeTableWord nbits w = some i) :
    ∃ rest, decodeWith opcodeOf (tableBytes nbits w) = .ok (i, rest) := by
  unfold decodeTableWord at h
  split at h
  case h_1 j rest hdecode =>
    cases h
    exact ⟨rest, hdecode⟩
  case h_2 => cases h

/-- Settles O58: a table word is placed as its bytes, and the SUMP map is one of the maps. -/
theorem placedWordIsDispatchedNext : Obligations.PlacedWordIsDispatchedNext := by
  rintro s nbits w i (⟨rest, h⟩ | ⟨hsump, hword⟩)
  · exact step_placeFrame h
  · obtain ⟨rest, h⟩ := decodeTableWord_eq_some hword
    exact step_placeFrame (by rw [hsump]; exact h)

/-! ## RESET bytes -/

/-- RESET bytes in an aligned framer change nothing. -/
theorem steps_of_resets {rest : List LinkEvent} (n : Nat) : ∀ {s : State}, Ready s → s.frame = [] →
    s.cmd = List.replicate n (.byte s.params.opcodes.reset) ++ rest → steps n s = .next (s.withCmd rest) := by
  induction n with
  | zero =>
    intro s _ _ hcmd
    have hrest : s.cmd = rest := hcmd
    exact (steps_zero s).trans (by rw [← hrest]; rfl)
  | succ n ih =>
    intro s hready hframe hcmd
    have hstep : step s = .next (s.withCmd (List.replicate n (.byte s.params.opcodes.reset) ++ rest)) := by
      rw [step_of_completed hready hcmd (by rw [hframe]; exact decodeWith_reset _), withFrame_nil_of_aligned hframe]
      rfl
    rw [steps_succ hstep]
    exact ih (s := s.withCmd _) ⟨hready.idle, hready.no_fault⟩ hframe rfl

/-- RESET bytes complete a frame in progress, which is not an ARM: an ARM has one byte. -/
theorem steps_complete_frame {s : State} {o : Byte} {qs : List Byte} {rest : List LinkEvent} (hready : Ready s)
    (hframe : s.frame = o :: qs) (ho : parameterizedWith s.params.opcodes.byte o = true) {k : Nat}
    (hk : qs.length + k = 4) (hpos : k ≠ 0)
    (hcmd : s.cmd = List.replicate k (.byte s.params.opcodes.reset) ++ rest) :
    ∃ i, i ≠ .arm ∧ steps k s = exec i ((s.withCmd rest).withFrame []) := by
  have hlen : (qs ++ List.replicate k s.params.opcodes.reset).length = 4 := by
    rw [List.length_append, List.length_replicate, hk]
  obtain ⟨i, hdecode⟩ := decodeWith_five ho (Nat.le_of_eq hlen.symm)
  rw [List.drop_of_length_le (Nat.le_of_eq hlen)] at hdecode
  refine ⟨i, ?_, ?_⟩
  · rintro rfl
    have hencode := (encodeOfDecodeIsTheBytes _ _ _ _ hdecode).2
    have hone := congrArg List.length hencode
    rw [List.length_cons, hlen] at hone
    cases hone
  · have hsteps := steps_of_params (rest := rest) (i := i) (List.replicate k s.params.opcodes.reset) hready hframe ho
      (by simpa using hpos) (by simpa using hk) (by simpa using hcmd) (by rw [hframe]; exact hdecode)
    rwa [List.length_replicate] at hsteps

/-- Settles O29: the bytes that complete the frame in progress dispatch a command other than ARM, which raises the fault
of a bounded setter or goes on in IDLE; the rest of the five are read in an aligned framer. -/
theorem fiveResetBytesRealignTheFramer : Obligations.FiveResetBytesRealignTheFramer := by
  intro s rest hready hok hcmd
  have unfaulted {P : Prop} (hfault : s.fault ≠ .none) : P := absurd hready.no_fault hfault
  cases hframe : s.frame with
  | nil =>
    exact ⟨5, s.withCmd rest, Nat.le_refl 5, steps_of_resets 5 hready hframe hcmd, (aligned_of_frame_nil hframe).1,
      hready.idle, rfl, fun _ => ⟨rfl, rfl⟩, unfaulted, fun _ => hready.no_fault,
      fun _ => (withFrame_nil_of_aligned hframe rest).symm⟩
  | cons o qs =>
    have hle : qs.length + 1 ≤ 4 := by simpa [hframe] using hok.length_le
    have ho : parameterizedWith s.params.opcodes.byte o = true := hok.opcode o (by rw [hframe]; rfl)
    have hne : o :: qs ≠ [] := List.cons_ne_nil o qs
    obtain ⟨k, hk⟩ : ∃ k, qs.length + k = 4 := ⟨4 - qs.length, by omega⟩
    have hfive : k + (qs.length + 1) = 5 := by omega
    obtain ⟨later, hlater⟩ : ∃ later, later =
        List.replicate (qs.length + 1) (.byte s.params.opcodes.reset) ++ rest := ⟨_, rfl⟩
    have hsplit : s.cmd = List.replicate k (.byte s.params.opcodes.reset) ++ later := by
      rw [hcmd, hlater, ← List.append_assoc, List.replicate_append_replicate, hfive]
    obtain ⟨i, hi, hsteps⟩ := steps_complete_frame hready hframe ho hk (by omega) hsplit
    rcases exec_other hi ((s.withCmd later).withFrame []) with ⟨c, n, hfault, _, hover, hn⟩ | ⟨c, bs, hgo, _⟩
    · exact ⟨k, _, by omega, hsteps.trans hfault, rfl, hready.idle, rfl, fun h => (by cases h),
        fun _ => ⟨hfive, hne, c, rfl⟩, fun hlimit => absurd (hlimit.mono hn) hover, fun h => absurd h hne⟩
    · have hrest := steps_of_resets (s := (((s.withCmd later).withFrame []).withCfg c).writeOut bs) (qs.length + 1)
        ⟨hready.idle, hready.no_fault⟩ rfl hlater
      have hall := (steps_add (n := qs.length + 1) (hsteps.trans hgo)).trans hrest
      rw [hfive] at hall
      exact ⟨5, _, Nat.le_refl 5, hall, rfl, hready.idle, rfl, fun _ => ⟨rfl, rfl⟩, unfaulted,
        fun _ => hready.no_fault, fun h => absurd h hne⟩

end Machine

end Sys2Proof
end

section
/-! PROOFS. O30, O31: the predicate of the trigger, bit by bit (41_trigger_matcher.md section 1). -/

namespace Sys2Proof.Machine

/-- A byte is not zero when one of its bits is set. -/
theorem byte_ne_zero_iff {b : Byte} : b ≠ 0 ↔ ∃ i, i < 8 ∧ b.getLsbD i = true := by
  constructor
  · intro hne
    by_contra hnone
    refine hne (BitVec.eq_of_getLsbD_eq fun i hi => ?_)
    cases hbit : b.getLsbD i
    · simp
    · exact absurd ⟨i, hi, hbit⟩ hnone
  · rintro ⟨i, _, hbit⟩ rfl
    simp at hbit

/-- The two parts of the formula are the masked bits that are high in both bytes and those that are low in both. -/
theorem triggerMatch_iff_exists_bit {m v x : Byte} :
    triggerMatch m v x = true ↔ ∃ i, i < 8 ∧ m.getLsbD i = true ∧ x.getLsbD i = v.getLsbD i := by
  rw [triggerMatch_iff, byte_ne_zero_iff, byte_ne_zero_iff, ← exists_or]
  refine exists_congr fun i => ?_
  rw [← and_or_left]
  refine and_congr_right fun hi => ?_
  simp only [BitVec.getLsbD_and, BitVec.getLsbD_not, hi, decide_true, Bool.true_and]
  cases x.getLsbD i <;> cases m.getLsbD i <;> cases v.getLsbD i <;> decide

/-- Settles O30: the formula, bit by bit. -/
theorem matchIsAnyMaskedProbeAtItsLevel : Obligations.MatchIsAnyMaskedProbeAtItsLevel :=
  fun _ _ _ => triggerMatch_iff_exists_bit

/-- Two bytes equal under a mask agree on its bits. -/
theorem getLsbD_of_and_eq {m x y : Byte} (h : x &&& m = y &&& m) {i : Nat} (hm : m.getLsbD i = true) :
    x.getLsbD i = y.getLsbD i := by
  simpa [hm] using congrArg (fun b : Byte => b.getLsbD i) h

/-- Settles O31: a zero mask has no bit, a mask that is not zero has one, and the level of a masked bit is what the
masked bytes hold. -/
theorem matchCornerCases : Obligations.MatchCornerCases := by
  intro m v x y w
  refine ⟨?_, fun hm => ?_, fun hx hv => ?_⟩
  · rw [Bool.eq_false_iff, ne_eq, triggerMatch_iff_exists_bit]
    rintro ⟨i, _, hbit, _⟩
    simp at hbit
  · obtain ⟨i, hi, hbit⟩ := byte_ne_zero_iff.1 hm
    exact triggerMatch_iff_exists_bit.2 ⟨i, hi, hbit, rfl⟩
  · rw [Bool.eq_iff_iff, triggerMatch_iff_exists_bit, triggerMatch_iff_exists_bit]
    refine exists_congr fun i => and_congr_right fun _ => and_congr_right fun hbit => ?_
    rw [getLsbD_of_and_eq hx hbit, getLsbD_of_and_eq hv hbit]

end Sys2Proof.Machine
end

section
/-! PROOFS. O4 to O12, O14, O17, O18: what each command stores, and what no command writes (40_config_commands.md). -/

namespace Sys2Proof.Machine

/-! ## The queries -/

/-- Settles O4: each reply is written whole. -/
theorem queriesOnlyAppendTheirReply : Obligations.QueriesOnlyAppendTheirReply :=
  fun _ => ⟨rfl, rfl⟩

/-! ## The divider -/

/-- The quotient is the number its two inequalities fix (40_config_commands.md R96). -/
theorem dividerQuotient_eq {clock q : Nat} {d : Word} (hle : q * (d.toNat + 1) ≤ clock)
    (hlt : clock < (q + 1) * (d.toNat + 1)) : dividerQuotient clock d = q :=
  Nat.div_eq_of_lt_le hle hlt

theorem exec_setDivider {s : State} {d : Word} {q : Nat} (hlimit : Within s.params (d.toNat + 1))
    (hle : q * (d.toNat + 1) ≤ s.params.clockFrequency) (hlt : s.params.clockFrequency < (q + 1) * (d.toNat + 1)) :
    exec (.setDivider d) s = .next (s.withCfg (rateAfter s.cfg q)) := by
  rw [← dividerQuotient_eq hle hlt]
  exact underLimit_of_within hlimit _

theorem rateAfter_zero (c : CaptureConfig) : rateAfter c 0 = { c with rateValid := false } := if_pos rfl

theorem rateAfter_of_ne_zero (c : CaptureConfig) {q : Nat} (hq : q ≠ 0) :
    rateAfter c q = { c with sampleRate := min q 1000000, rateValid := true } := if_neg hq

/-- Settles O5: the stored rate is what `rateAfter` makes of the quotient. -/
theorem setDividerSetsRateOrUnsetsIt : Obligations.SetDividerSetsRateOrUnsetsIt := by
  intro s d q hlimit hle hlt
  rw [exec_setDivider hlimit hle hlt]
  constructor
  · rintro rfl
    rw [rateAfter_zero]
    rfl
  · intro hq
    rw [rateAfter_of_ne_zero _ hq]
    rfl

/-- Settles O6: each range fixes the quotient, up to the clamp. -/
theorem dividerRangesAtDefaultClock : Obligations.DividerRangesAtDefaultClock := by
  intro s d hclock hlimit
  have hrate : ∀ q, q ≠ 0 → 100000000 / (d.toNat + 1) = q →
      (rateAfter s.cfg (dividerQuotient s.params.clockFrequency d)).rateValid = true ∧
      (rateAfter s.cfg (dividerQuotient s.params.clockFrequency d)).sampleRate = min q 1000000 := by
    intro q hq hquotient
    rw [dividerQuotient, hclock, hquotient, rateAfter_of_ne_zero _ hq]
    exact ⟨rfl, rfl⟩
  refine ⟨_, underLimit_of_within hlimit _, rfl, fun hd => ?_, fun hd => ?_, fun hd => ?_, fun hd => ?_⟩
  · have hlarge : 1000000 ≤ 100000000 / (d.toNat + 1) := (Nat.le_div_iff_mul_le (Nat.succ_pos _)).2 (by omega)
    obtain ⟨hvalid, hclamped⟩ := hrate _ (by omega) rfl
    exact ⟨hvalid, hclamped.trans (Nat.min_eq_right hlarge)⟩
  · exact hrate 990099 (by decide) (by rw [hd])
  · exact hrate 1 (by decide) (by rw [hd])
  · have hzero : 100000000 / (d.toNat + 1) = 0 := Nat.div_eq_of_lt (by omega)
    show (rateAfter s.cfg (dividerQuotient s.params.clockFrequency d)).rateValid = false
    rw [dividerQuotient, hclock, hzero, rateAfter_zero]

/-- Settles O7: the quotient is zero, and an ARM without a valid rate faults. -/
theorem zeroQuotientUnsetsRateAndArmFaults : Obligations.ZeroQuotientUnsetsRateAndArmFaults := by
  intro s d hclock hlimit
  refine ⟨s.withCfg { s.cfg with rateValid := false }, ?_, rfl, execArm_of_invalid rfl⟩
  rw [exec_setDivider hlimit (q := 0) (by omega) (by omega), rateAfter_zero]

/-! ## Counts, delays and flags -/

/-- Four times a 16-bit parameter is below the clamp. -/
theorem clampCount_half (a : Half) : clampCount (times4 a.toNat) = a.toNat * 4 := by
  have hlt := a.isLt
  exact Nat.min_eq_left (by unfold times4 Config.virtualCapacity; omega)

/-- Settles O8: both products are within the limit, and the clamp never acts. -/
theorem setCaptureSizeStoresFourTimesBoth : Obligations.SetCaptureSizeStoresFourTimesBoth := by
  intro s a b hcount hdelay
  calc exec (.setCaptureSize a b) s
      = underLimit .delayProduct (times4 b.toNat) s (.next (s.withCfg
          { s.cfg with sampleCount := clampCount (times4 a.toNat), sampleDelay := times4 b.toNat })) :=
        underLimit_of_within hcount _
    _ = .next (s.withCfg { s.cfg with sampleCount := clampCount (times4 a.toNat), sampleDelay := times4 b.toNat }) :=
        underLimit_of_within hdelay _
    _ = _ := by rw [clampCount_half]; rfl

/-- Settles O9: the word as it is, and four times the parameter. -/
theorem setFlagsAndDelayStoreTheirParameter : Obligations.SetFlagsAndDelayStoreTheirParameter :=
  fun _ _ => ⟨rfl, fun hlimit => underLimit_of_within hlimit _⟩

theorem exec_setReadCount {s : State} {n : Word} (hlimit : Within s.params (n.toNat * 4)) :
    exec (.setReadCount n) s = .next (s.withCfg { s.cfg with sampleCount := clampCount (n.toNat * 4) }) :=
  underLimit_of_within hlimit _

/-- Settles O10: `VIRTUAL_CAPACITY` is four times 2^28. -/
theorem setReadCountClampsToVirtualCapacity : Obligations.SetReadCountClampsToVirtualCapacity := by
  intro s n hlimit
  rw [exec_setReadCount hlimit]
  constructor
  · intro hn
    have hclamp : clampCount (n.toNat * 4) = n.toNat * 4 :=
      Nat.min_eq_left (by unfold Config.virtualCapacity; omega)
    rw [hclamp]
    rfl
  · intro hn
    have hclamp : clampCount (n.toNat * 4) = 1073741824 :=
      Nat.min_eq_right (by unfold Config.virtualCapacity; omega)
    rw [hclamp]
    rfl

theorem within_of_none {p : Params} (h : p.counterLimit = none) (n : Nat) : Within p n := by
  intro l hl
  rw [h] at hl
  cases hl

theorem within_of_le {p : Params} {l n : Nat} (hl : p.counterLimit = some l) (hn : n ≤ l) : Within p n := by
  intro l' hl'
  rw [hl] at hl'
  cases hl'
  exact hn

/-- Settles O11: the first product past the limit raises the fault before anything is written. -/
theorem settersPastLimitRaiseCounterLimit : Obligations.SettersPastLimitRaiseCounterLimit := by
  intro s l hl
  refine ⟨fun d h => underLimit_of_over hl h _, fun a b h => underLimit_of_over hl h _, fun a b ha hb => ?_,
    fun n h => ⟨underLimit_of_over hl h _, underLimit_of_over hl h _⟩⟩
  exact (underLimit_of_within (within_of_le hl ha) _).trans (underLimit_of_over hl hb _)

/-! ## The trigger -/

theorem lowByte_getLsbD (w : Word) {i : Nat} (hi : i < 8) : (lowByte w).getLsbD i = w.getLsbD i := by
  simp [lowByte, hi]

/-- Settles O12: the byte is the parameter's low byte. -/
theorem setTriggerMaskAndValueKeepLowByte : Obligations.SetTriggerMaskAndValueKeepLowByte :=
  fun _ w => ⟨lowByte w, fun _ hi => lowByte_getLsbD w hi, rfl, rfl⟩

theorem onAlias_skips (f : State → State) {s : State} (h : s.params.stageAlias = false) :
    onAlias f s = .next s := by
  simp only [onAlias, h, Bool.false_eq_true, if_false]

theorem onAlias_acts (f : State → State) {s : State} (h : s.params.stageAlias = true) :
    onAlias f s = .next (f s) := by
  simp only [onAlias, h, if_true]

/-- Settles O14: each command of stages 1 to 3 is the stage 0 setter behind `onAlias`. -/
theorem otherStagesSkipOrAliasStageZero : Obligations.OtherStagesSkipOrAliasStageZero := by
  intro s w
  refine ⟨fun h => ?_, fun h => ?_, by decide⟩
  · have skips := fun f => onAlias_skips f h
    exact ⟨skips _, skips _, skips _, skips _, skips _, skips _, skips _, skips _, skips _⟩
  · have acts := fun f => onAlias_acts f h
    exact ⟨setMask w s, setValue w s, setEnable w s, rfl, rfl, rfl,
      acts _, acts _, acts _, acts _, acts _, acts _, acts _, acts _, acts _⟩

/-! ## ARM past the limit -/

theorem execArm_of_valid {s : State} (hvalid : s.cfg.rateValid = true) :
    execArm s = underLimit .capBudget (armedLatches s.cfg).capBudget s
      (.next ((s.withTs (armedLatches s.cfg)).withSeq
        (if waitsForTrigger (armedLatches s.cfg) then .trigWait else .capFirst))) := by
  simp only [execArm, hvalid, Bool.true_eq_false, if_false]

/-- Settles O17: the budget is checked before a latch is written. -/
theorem armBudgetPastLimitRaisesCounterLimit : Obligations.ArmBudgetPastLimitRaisesCounterLimit := by
  intro s l r hvalid hle hlt hl hover
  have hrate : captureRate s.cfg.sampleRate = r := captureRate_eq hle hlt
  subst hrate
  exact (execArm_of_valid hvalid).trans (underLimit_of_over hl hover _)

/-! ## The frame of every command -/

/-- What ARM answers: the block with a fault raised, or with the latches written and the capture started. -/
theorem execArm_eq_next {s t : State} (h : execArm s = .next t) :
    (∃ r, t = s.raiseFault r) ∨ t = (s.withTs (armedLatches s.cfg)).withSeq
      (if waitsForTrigger (armedLatches s.cfg) then .trigWait else .capFirst) := by
  rcases execArm_cases s with ⟨_, he⟩ | ⟨_, _, he⟩ | ⟨_, _, he⟩ <;> rw [he] at h <;> cases h
  · exact .inl ⟨_, rfl⟩
  · exact .inl ⟨_, rfl⟩
  · exact .inr rfl

/-- Settles O18: ARM raises a fault or writes latches and `seq`; another command raises the fault of a bounded setter or
writes configuration and `out`. -/
theorem commandsLeaveCaptureAndReportAlone : Obligations.CommandsLeaveCaptureAndReportAlone := by
  intro i s t h
  by_cases hi : i = .arm
  · subst hi
    have harm : execArm s = .next t := h
    obtain ⟨r, rfl⟩ | rfl := execArm_eq_next harm
    · exact ⟨fun _ => rfl, rfl, rfl, rfl, rfl, rfl, rfl, fun hne => absurd rfl hne, fun hne => absurd rfl hne,
        fun _ => ⟨rfl, .inl rfl⟩, fun _ => rfl, fun _ _ => rfl⟩
    · exact ⟨fun _ => rfl, rfl, rfl, rfl, rfl, rfl, rfl, fun hne => absurd rfl hne, fun hne => absurd rfl hne,
        fun hfault => absurd rfl hfault, fun _ => rfl, fun _ _ => rfl⟩
  · obtain ⟨c, n, he, hlimited, hover, _⟩ | ⟨c, bs, he, _, hbs⟩ := exec_other hi s <;> rw [he] at h <;> cases h
    · exact ⟨fun _ => rfl, rfl, rfl, rfl, rfl, rfl, rfl, fun _ => ⟨rfl, rfl⟩,
        fun _ hnone => absurd (within_of_none hnone n) hover, fun _ => ⟨rfl, .inr hlimited⟩, fun harm => absurd harm hi,
        fun _ _ => rfl⟩
    · exact ⟨fun _ => rfl, rfl, rfl, rfl, rfl, rfl, rfl, fun _ => ⟨rfl, rfl⟩, fun _ _ => rfl,
        fun hfault => absurd rfl hfault, fun harm => absurd harm hi,
        fun hid hmeta => by rw [hbs hid hmeta, State.writeOut_nil]; rfl⟩

end Sys2Proof.Machine
end

section
/-! PROOFS. O34, O41, O38, O39, O40, O37: the capture, from its first sample to its stop (42_capture_state_machine.md
R156 to R159, 43_run_length_encoder.md sections 2 and 4, 60_exceptions.md section 2).

`Records` is the invariant of a capture with the samples it stands for. The first sample sets it up, each poll appends
one sample to it, and an induction over the polls makes it a statement about the whole capture. -/

namespace Sys2Proof.Machine

/-! ## The first sample -/

theorem step_of_capFirst {s : State} (hf : s.fault = .none) (hq : s.seq = .capFirst) : step s = capFirstStep s := by
  rw [step_unfaulted hf, hq]

/-- The capture after the first sample, `x`, over the buffer `m`. -/
def Capture.started (m : Memory) (x : Byte) : Capture := ⟨m.write 0 ⟨x, 1⟩, 0, x, 1⟩

theorem portRead_cap (s : State) : (portRead s).2.cap = s.cap := by
  obtain ⟨d, hd⟩ := portRead_state s
  rw [hd, State.withEnv_cap]

/-- One poll, whose sample starts the capture unless its count of one passes the limit. -/
theorem capFirstStep_eq (s : State) : capFirstStep s = underLimit .runCount 1 (portRead s).2
    (.next (((portRead s).2.withSeq .capLoop).withCap (.started s.cap.runs (portRead s).1))) := by
  have hwrite : bufWrite s.cap.runs 0 ⟨(portRead s).1, 1⟩ = some (s.cap.runs.write 0 ⟨(portRead s).1, 1⟩) :=
    bufWrite_of_lt _ (by decide)
  simp only [capFirstStep, rleFirst, State.withSeq_cap, portRead_cap, hwrite, Capture.started]

theorem capFirstStep_listed {s : State} {x : Byte} {xs : List Byte} (hpolls : s.env.polls = x :: xs) :
    capFirstStep s = underLimit .runCount 1 (s.withEnv { s.env with polls := xs })
      (.next (((s.withEnv { s.env with polls := xs }).withSeq .capLoop).withCap (.started s.cap.runs x))) := by
  rw [capFirstStep_eq, portRead_listed hpolls]

theorem step_of_first_sample {s : State} {x : Byte} {xs : List Byte} (hq : s.seq = .capFirst) (hf : s.fault = .none)
    (hlimit : Within s.params 1) (hpolls : s.env.polls = x :: xs) :
    step s = .next (((s.withEnv { s.env with polls := xs }).withSeq .capLoop).withCap (.started s.cap.runs x)) := by
  rw [step_of_capFirst hf hq, capFirstStep_listed hpolls]
  exact underLimit_of_within (s := s.withEnv { s.env with polls := xs }) hlimit _

theorem Capture.started_read_zero {m : Memory} (hwf : m.wf = true) (x : Byte) :
    (Capture.started m x).runs.read 0 = ⟨x, 1⟩ :=
  Memory.read_write_self _ _ hwf

/-- Settles O34: one poll is made, and slot 0 alone is written. -/
theorem firstSampleIsRunZero : Obligations.FirstSampleIsRunZero :=
  fun s x _ hq hf hwf hlimit hpolls => ⟨(Capture.started s.cap.runs x).runs, step_of_first_sample hq hf hlimit hpolls,
    Capture.started_read_zero hwf x, fun _ hi => Memory.read_write_ne _ hi _⟩

/-- Settles O41: the wait ends by the stop, the first sample is taken without a look at it, and the first boundary sees
it again. -/
theorem stopInTheWaitStillTakesOneSample : Obligations.StopInTheWaitStillTakesOneSample := by
  intro s x xs bs hq hf hwf hlimit hstops hpolls
  have hwait : step s = .next ((s.withEnv { s.env with stops := true :: bs }).withSeq .capFirst) := by
    rw [step_of_trigWait hf hq, trigWaitStep_stop hstops]
  obtain ⟨m, hfirst, hread, _⟩ := firstSampleIsRunZero ((s.withEnv { s.env with stops := true :: bs }).withSeq .capFirst)
    x xs rfl hf hwf hlimit hpolls
  have hstop := anyStopConditionStartsTheReport (((s.withEnv { s.env with polls := xs, stops := true :: bs }).withSeq
    .capLoop).withCap ⟨m, 0, x, 1⟩) true bs rfl hf (Nat.succ_pos _) rfl (.inl rfl)
  exact ⟨_, (steps_succ hwait).trans ((steps_succ hfirst).trans ((steps_one _).trans hstop)), rfl, rfl, rfl, hread, rfl,
    rfl⟩

/-! ## The number of runs of a sample list -/

theorem runCount_concat (x : Byte) : ∀ l : List Byte,
    runCount (l ++ [x]) = runCount l + if l.getLast? = some x then 0 else 1
  | [] => by simp [runCount]
  | [a] => by simp [runCount, Nat.add_comm]
  | a :: b :: rest => by
    have ih := runCount_concat x (b :: rest)
    simp only [List.cons_append, runCount, List.getLast?_cons_cons] at ih ⊢
    rw [ih, Nat.add_assoc]

theorem runCount_le_append (l : List Byte) (xs : List Byte) : runCount l ≤ runCount (l ++ xs) := by
  induction xs using List.reverseRecOn with
  | nil => rw [List.append_nil]
  | append_singleton xs x ih =>
    rw [← List.append_assoc, runCount_concat]
    exact Nat.le_trans ih (Nat.le_add_right _ _)

theorem runCount_le_length : ∀ l : List Byte, runCount l ≤ l.length
  | [] => Nat.le_refl 0
  | [_] => Nat.le_refl 1
  | a :: b :: rest => by
    have ih := runCount_le_length (b :: rest)
    simp only [runCount, List.length_cons] at ih ⊢
    split <;> omega

theorem runCount_replicate (x : Byte) : ∀ n, runCount (List.replicate (n + 1) x) = 1
  | 0 => rfl
  | n + 1 => by
    have ih := runCount_replicate x n
    rw [List.replicate_succ] at ih
    simp only [List.replicate_succ, runCount, if_true, ih]

/-! ## A capture and its samples -/

/-- The capture `c` has recorded exactly the samples `l`, oldest first, one run for each stretch of equal ones. -/
structure Records (budget : Nat) (c : Capture) (l : List Byte) : Prop where
  wf : c.runs.wf = true
  ok : CaptureOk budget c
  samples : samplesUpTo c.runs c.cursor = l
  runs : c.cursor + 1 = runCount l

theorem Records.taken_eq {budget : Nat} {c : Capture} {l : List Byte} (h : Records budget c l) :
    c.taken = l.length := by
  rw [← h.ok.sum_eq, ← length_samplesUpTo, h.samples]

/-- The last sample of a run that is not empty is its value. -/
theorem getLast?_samplesUpTo {m : Memory} {j : Nat} (hpos : 1 ≤ (m.read j).count) :
    (samplesUpTo m j).getLast? = some (m.read j).value := by
  obtain ⟨n, hn⟩ : ∃ n, (m.read j).count = n + 1 := ⟨_, (Nat.succ_pred_eq_of_pos hpos).symm⟩
  cases j <;> simp [samplesUpTo, hn, List.replicate_succ']

theorem Records.getLast?_eq {budget : Nat} {c : Capture} {l : List Byte} (h : Records budget c l) :
    l.getLast? = some c.prev := by
  rw [← h.samples, getLast?_samplesUpTo (h.ok.count_pos _ (Nat.le_refl _)), h.ok.last_value]

theorem Records.started {m : Memory} (hwf : m.wf = true) (budget : Nat) (x : Byte) :
    Records budget (.started m x) [x] where
  wf := Memory.wf_write _ hwf (by decide)
  ok := .first hwf budget x
  samples := by
    have hread := Capture.started_read_zero hwf x
    simp only [Capture.started] at hread
    simp only [Capture.started, samplesUpTo, hread, List.replicate_one]
  runs := rfl

/-! ## One poll -/

/-- The capture after a poll of `x`: counted in the current run, or in one opened for it. -/
def Capture.polled (x : Byte) (c : Capture) : Capture :=
  if x = c.prev then c.counted x else (c.opened x).counted x

theorem Capture.polled_of_eq {x : Byte} {c : Capture} (hx : x = c.prev) : c.polled x = c.counted x := if_pos hx

theorem Capture.polled_of_ne {x : Byte} {c : Capture} (hx : x ≠ c.prev) : c.polled x = (c.opened x).counted x :=
  if_neg hx

/-- A boundary at which no stop condition holds makes one poll. -/
theorem step_of_poll {s : State} {x : Byte} {xs : List Byte} {bs : List Bool} (hq : s.seq = .capLoop)
    (hf : s.fault = .none) (hcursor : s.cap.cursor < 3499) (hbudget : s.cap.taken < s.ts.capBudget)
    (hstops : s.env.stops = false :: bs) (hpolls : s.env.polls = x :: xs) :
    step s = rleUpdate x (s.withEnv { s.env with polls := xs, stops := bs }) := by
  rw [step_of_capLoop hf hq, capLoopStep_poll hstops hpolls (boundaryStop_false hcursor hbudget)]

/-- Without a limit `rle_update` records the sample. -/
theorem rleUpdate_polled {s : State} (x : Byte) (hslot : s.cap.cursor + 1 < Config.bufferSize)
    (hlimit : s.params.counterLimit = none) : rleUpdate x s = .next (s.withCap (s.cap.polled x)) := by
  by_cases hx : x = s.cap.prev
  · rw [Capture.polled_of_eq hx]
    exact rleUpdate_of_within (openRun_of_eq hx) (Nat.lt_of_succ_lt hslot) (within_of_none hlimit _)
      (within_of_none hlimit _)
  · rw [Capture.polled_of_ne hx]
    exact rleUpdate_of_within (openRun_of_ne hx hslot) hslot (within_of_none hlimit _) (within_of_none hlimit _)

/-- A poll appends its sample to what the capture has recorded. -/
theorem Records.polled {budget : Nat} {c : Capture} {l : List Byte} (h : Records budget c l) (x : Byte)
    (hbudget : c.taken < budget) (hslot : c.cursor + 1 < Config.bufferSize) :
    Records budget (c.polled x) (l ++ [x]) := by
  have hruns := runCount_concat x l
  rw [h.getLast?_eq] at hruns
  by_cases hx : x = c.prev
  · subst hx
    rw [Capture.polled_of_eq rfl]
    have hsamples := samplesUpTo_counted (fun i hi => c.counted_read_ne c.prev hi) (c.counted_read_cursor c.prev h.wf)
    rw [h.samples, h.ok.last_value] at hsamples
    exact {
      wf := Memory.wf_write _ h.wf h.ok.cursor_lt
      ok := h.ok.counted h.wf hbudget (by unfold Config.bufferSize at hslot ⊢; omega)
      samples := hsamples
      runs := by rw [hruns, if_pos rfl, ← h.runs]; rfl }
  · rw [Capture.polled_of_ne hx]
    have hnew := Capture.opened_counted_read_cursor x h.wf hslot
    have hother := fun i (hi : i ≠ c.cursor + 1) => c.opened_counted_read_ne x hi
    have hsamples := samplesUpTo_opened hother hnew
    rw [h.samples] at hsamples
    exact {
      wf := Memory.wf_write _ (Capture.opened_wf x h.wf hslot) hslot
      ok := h.ok.opened hx hbudget hslot hnew hother
      samples := hsamples
      runs := by rw [hruns, if_neg (fun heq => hx (Option.some.inj heq).symm), ← h.runs]; rfl }

/-! ## The whole capture -/

/-- The polls of the capture loop are recorded in order, by induction on them. -/
theorem steps_of_polls {ys : List Byte} {bs : List Bool} (xs : List Byte) : ∀ {s : State} {l : List Byte},
    s.seq = .capLoop → s.fault = .none → s.params.counterLimit = none → Records s.ts.capBudget s.cap l →
    l.length + xs.length ≤ max 1 s.ts.capBudget → runCount (l ++ xs).dropLast ≤ 3499 →
    s.env.polls = xs ++ ys → s.env.stops = List.replicate xs.length false ++ bs →
    ∃ c, steps xs.length s = .next ((s.withCap c).withEnv { s.env with polls := ys, stops := bs }) ∧
      Records s.ts.capBudget c (l ++ xs) := by
  induction xs with
  | nil =>
    intro s l _ _ _ hrec _ _ hpolls hstops
    have hys : s.env.polls = ys := hpolls
    have hbs : s.env.stops = bs := hstops
    subst hys hbs
    exact ⟨s.cap, steps_zero s, by rwa [List.append_nil]⟩
  | cons x xs ih =>
    intro s l hq hf hlimit hrec hbudget hruns hpolls hstops
    have hbelow : runCount l ≤ runCount (l ++ x :: xs).dropLast := by
      rw [List.dropLast_append_of_ne_nil (List.cons_ne_nil x xs)]
      exact runCount_le_append _ _
    have hcursor : s.cap.cursor < 3499 := by
      have := hrec.runs
      omega
    have hslot : s.cap.cursor + 1 < Config.bufferSize := Nat.succ_lt_succ hcursor
    have htaken : s.cap.taken < s.ts.capBudget := by
      have hlen := hrec.taken_eq
      have hpos : 1 ≤ l.length := by
        have := hrec.runs
        have := runCount_le_length l
        omega
      rw [List.length_cons] at hbudget
      omega
    have hstep : step s = .next ((s.withEnv { s.env with
        polls := xs ++ ys, stops := List.replicate xs.length false ++ bs }).withCap (s.cap.polled x)) :=
      (step_of_poll hq hf hcursor htaken hstops hpolls).trans (rleUpdate_polled x hslot hlimit)
    obtain ⟨c, hsteps, hc⟩ := ih (s := (s.withEnv { s.env with
        polls := xs ++ ys, stops := List.replicate xs.length false ++ bs }).withCap (s.cap.polled x)) (l := l ++ [x])
      hq hf hlimit (hrec.polled x htaken hslot) (by simp at hbudget ⊢; omega) (by simpa using hruns) rfl rfl
    refine ⟨c, ?_, by simpa using hc⟩
    rw [List.length_cons, steps_succ hstep, hsteps]
    rfl

/-- From CAP_FIRST the polls are recorded, the first sample among them. -/
theorem steps_of_capture {s : State} {x : Byte} {xs ys : List Byte} {bs : List Bool} (hq : s.seq = .capFirst)
    (hf : s.fault = .none) (hwf : s.cap.runs.wf = true) (hlimit : s.params.counterLimit = none)
    (hbudget : xs.length + 1 ≤ max 1 s.ts.capBudget) (hruns : runCount (x :: xs).dropLast ≤ 3499)
    (hpolls : s.env.polls = (x :: xs) ++ ys) (hstops : s.env.stops = List.replicate xs.length false ++ bs) :
    ∃ c, steps (xs.length + 1) s =
        .next (((s.withSeq .capLoop).withCap c).withEnv { s.env with polls := ys, stops := bs }) ∧
      Records s.ts.capBudget c (x :: xs) := by
  have hfirst := step_of_first_sample hq hf (within_of_none hlimit 1) hpolls
  obtain ⟨c, hsteps, hc⟩ := steps_of_polls (ys := ys) (bs := bs) xs
    (s := ((s.withEnv { s.env with polls := xs ++ ys }).withSeq .capLoop).withCap (.started s.cap.runs x)) (l := [x])
    rfl hf hlimit (.started hwf _ x) (by simpa [Nat.add_comm] using hbudget) hruns rfl hstops
  refine ⟨c, ?_, hc⟩
  rw [steps_succ hfirst]
  exact hsteps

/-- Settles O38: what the capture has recorded is the list of polls. -/
theorem captureRecordsExactlyThePolls : Obligations.CaptureRecordsExactlyThePolls := by
  intro s x xs ys bs hq hf hwf hlimit hbudget hruns hpolls hstops
  obtain ⟨c, hsteps, hc⟩ := steps_of_capture hq hf hwf hlimit hbudget hruns hpolls hstops
  exact ⟨c, hsteps, hc.samples, hc.runs, hc.taken_eq⟩

/-- Settles O39: the one run of equal samples is run 0, and it stands for all of them. -/
theorem equalSamplesAreOneRun : Obligations.EqualSamplesAreOneRun := by
  intro s x n ys bs hq hf hwf hlimit hbudget hpolls hstops
  have hruns : runCount (List.replicate (n + 1) x).dropLast ≤ 3499 := by
    have hprefix := runCount_le_append (List.replicate n x) [x]
    rw [← List.replicate_succ', runCount_replicate] at hprefix
    rw [List.replicate_succ', List.dropLast_concat]
    omega
  obtain ⟨c, hsteps, hc⟩ := steps_of_capture (x := x) (xs := List.replicate n x) hq hf hwf hlimit
    (by simpa using hbudget) hruns hpolls (by simpa using hstops)
  rw [← List.replicate_succ] at hc
  rw [List.length_replicate] at hsteps
  have hcursor : c.cursor = 0 := Nat.succ_injective (hc.runs.trans (runCount_replicate x n))
  have hsamples := hc.samples
  rw [hcursor, samplesUpTo, List.replicate_inj] at hsamples
  obtain ⟨hcount, hvalue⟩ := hsamples
  refine ⟨_, hsteps, rfl, hcursor, ?_, by simpa using hc.taken_eq⟩
  calc c.runs.read 0 = ⟨(c.runs.read 0).value, (c.runs.read 0).count⟩ := rfl
    _ = ⟨x, n + 1⟩ := by rw [hcount, hvalue.resolve_left (by omega)]

/-- Settles O40: the 3500th run is the last slot's, whose count is one, and the next boundary stops there. -/
theorem capacityStopsTheCaptureSilently : Obligations.CapacityStopsTheCaptureSilently := by
  intro s xs ys bs hq hf hwf hlimit hbudget hlen hruns hpolls hstops
  obtain ⟨x, xs, rfl⟩ := List.exists_cons_of_length_eq_add_one hlen
  have hxs : xs.length = 3499 := Nat.succ_injective hlen
  have hdrop : runCount (x :: xs).dropLast ≤ 3499 :=
    Nat.le_trans (runCount_le_length _) (by rw [List.length_dropLast, hlen])
  have hstops' : s.env.stops = List.replicate xs.length false ++ (false :: bs) := by
    rw [hstops, hxs, List.replicate_succ', List.append_assoc]
    rfl
  obtain ⟨c, hsteps, hc⟩ := steps_of_capture hq hf hwf hlimit (by rw [hxs]; omega) hdrop hpolls hstops'
  have hcursor : c.cursor = 3499 := Nat.succ_injective (hc.runs.trans hruns)
  have hstop := anyStopConditionStartsTheReport
    (((s.withSeq .capLoop).withCap c).withEnv { s.env with polls := ys, stops := false :: bs }) false bs rfl hf
    hc.ok.cursor_lt rfl (.inr (.inr hcursor))
  have hlast := hc.ok.last_slot hcursor
  rw [hcursor] at hlast
  rw [hxs] at hsteps
  have hall := (steps_add (n := 1) hsteps).trans ((steps_one _).trans hstop)
  exact ⟨_, hall, rfl, hf, hcursor, hc.taken_eq.trans hlen, hlast, rfl, rfl⟩

/-! ## A count past the limit -/

theorem rleUpdate_over_runCount {x : Byte} {s : State} {c : Capture} {l : Nat} (hl : s.params.counterLimit = some l)
    (hopen : openRun x s.cap = some c) (hslot : c.cursor < Config.bufferSize)
    (hover : l < (c.runs.read c.cursor).count + 1) :
    rleUpdate x s = .next (s.raiseFault (.counterLimit .runCount)) := by
  rw [rleUpdate_of_openRun hopen hslot, underLimit_of_over hl hover]

theorem rleUpdate_over_taken {x : Byte} {s : State} {c : Capture} {l : Nat} (hl : s.params.counterLimit = some l)
    (hopen : openRun x s.cap = some c) (hslot : c.cursor < Config.bufferSize)
    (hcount : (c.runs.read c.cursor).count + 1 ≤ l) (hover : l < c.taken + 1) :
    rleUpdate x s = .next (s.raiseFault (.counterLimit .taken)) := by
  rw [rleUpdate_of_openRun hopen hslot, underLimit_of_within (within_of_le hl hcount), underLimit_of_over hl hover]

theorem reportStep_of_pos {s : State} (hk : 0 < s.rep.k) : reportStep s = walkSample s := if_pos hk

/-- Settles O37: the first count past the limit raises the fault, at the poll, at the walked sample or at the first
sample. -/
theorem counterPastLimitRaisesInsteadOfWriting : Obligations.CounterPastLimitRaisesInsteadOfWriting := by
  intro s l hf hl
  have hslot : s.cap.cursor < 3499 → s.cap.cursor + 1 < Config.bufferSize := Nat.succ_lt_succ
  refine ⟨?_, ?_, ?_, ?_, ?_, ?_⟩
  · intro x xs bs hq hcursor hbudget hstops hpolls hx hover
    rw [step_of_poll hq hf hcursor hbudget hstops hpolls]
    exact rleUpdate_over_runCount hl (openRun_of_eq hx) (Nat.lt_of_succ_lt (hslot hcursor)) hover
  · intro x xs bs hq hcursor hbudget hstops hpolls hx hcount hover
    rw [step_of_poll hq hf hcursor hbudget hstops hpolls]
    exact rleUpdate_over_taken hl (openRun_of_eq hx) (Nat.lt_of_succ_lt (hslot hcursor)) hcount hover
  · intro x xs bs hq hwf hcursor hbudget hstops hpolls hx hone hover
    rw [step_of_poll hq hf hcursor hbudget hstops hpolls]
    have hcount : ((s.cap.opened x).runs.read (s.cap.opened x).cursor).count + 1 ≤ l := by
      rw [Capture.opened_read_cursor x hwf]
      exact hone
    exact rleUpdate_over_taken hl (openRun_of_ne hx (hslot hcursor)) (hslot hcursor) hcount hover
  · rintro x xs bs hq hwf hcursor hbudget hstops hpolls hx rfl
    rw [step_of_poll hq hf hcursor hbudget hstops hpolls]
    exact rleUpdate_over_runCount hl (openRun_of_ne hx (hslot hcursor)) (hslot hcursor) (Nat.succ_pos _)
  · intro hq hk hover
    rw [step_of_report hf hq, reportStep_of_pos hk]
    exact underLimit_of_over hl hover _
  · rintro x xs hq hpolls rfl
    rw [step_of_capFirst hf hq, capFirstStep_listed hpolls]
    exact underLimit_of_over (s := s.withEnv { s.env with polls := xs }) hl Nat.one_pos _

end Sys2Proof.Machine
end

section
/-! PROOFS. O42, O43, O44, O46: the report, one step and as a whole, and the ARM that ends in it
(44_decimation_filter.md sections 1 to 3, 42_capture_state_machine.md section 4).

The walk is followed by the list of samples it has not walked yet. Each of its steps takes at most one sample off that
list, so the bytes it emits are a recursion over the list, `emitted`, whose closed form is `decimate`. -/

namespace Sys2Proof.Machine

/-! ## One step of the report -/

theorem emit_listed {s : State} {a : Bool} {as : List Bool} (b : Byte) (haccepts : s.env.accepts = a :: as) :
    emit b s = (a, if a then (s.withEnv { s.env with accepts := as }).writeOut [b]
      else s.withEnv { s.env with accepts := as }) := by
  simp only [emit, hostTakes_listed haccepts]

/-- A sample short of a group is counted. -/
theorem step_of_walk {s : State} (hq : s.seq = .report) (hf : s.fault = .none) (hk : 0 < s.rep.k)
    (hlimit : Within s.params (s.rep.c + 1)) (hc : s.rep.c + 1 ≠ s.ts.capRate) :
    step s = .next (s.withRep ⟨s.rep.j, s.rep.k - 1, s.rep.c + 1⟩) := by
  rw [step_of_report hf hq, reportStep_of_pos hk, walkSample, underLimit_of_within hlimit, if_neg hc]

/-- The sample that completes a group is offered to the host. -/
theorem step_of_emit {s : State} {a : Bool} {as : List Bool} (hq : s.seq = .report) (hf : s.fault = .none)
    (hj : s.rep.j < 3500) (hk : 0 < s.rep.k) (hlimit : Within s.params (s.rep.c + 1))
    (hc : s.rep.c + 1 = s.ts.capRate) (haccepts : s.env.accepts = a :: as) :
    step s = .next (if a then ((s.withEnv { s.env with accepts := as }).writeOut
      [(s.cap.runs.read s.rep.j).value]).withRep ⟨s.rep.j, s.rep.k - 1, 0⟩
      else s.withEnv { s.env with accepts := as }) := by
  rw [step_of_report hf hq, reportStep_of_pos hk, walkSample, underLimit_of_within hlimit, if_pos hc]
  simp only [emitSample, bufRead_of_lt (show s.rep.j < Config.bufferSize from hj), emit_listed _ haccepts]
  cases a <;> rfl

theorem step_of_nextRun {s : State} (hq : s.seq = .report) (hf : s.fault = .none) (hj : s.rep.j < 3500)
    (hk : s.rep.k = 0) (hpos : 0 < s.rep.j) :
    step s = .next (s.withRep ⟨s.rep.j - 1, (s.cap.runs.read (s.rep.j - 1)).count, s.rep.c⟩) := by
  have hslot : s.rep.j - 1 < Config.bufferSize := Nat.lt_of_le_of_lt (Nat.sub_le _ _) hj
  simp only [step_of_report hf hq, reportStep, hk, Nat.lt_irrefl, if_false, hpos, if_true, nextRun, bufRead_of_lt hslot]

theorem step_of_reportEnd {s : State} (hq : s.seq = .report) (hf : s.fault = .none) (hk : s.rep.k = 0)
    (hj : s.rep.j = 0) : step s = .next (s.withSeq .idle) := by
  simp only [step_of_report hf hq, reportStep, hk, hj, Nat.lt_irrefl, if_false, reportEnd]

/-- Settles O42: the four branches of the report's step. (The model's own `reportStep` has the obligation's name.) -/
theorem reportStep_branches : Obligations.ReportStep :=
  fun _ hq hf hj => ⟨fun hk hlimit hc => step_of_walk hq hf hk hlimit hc,
    fun _ hk hlimit hc haccepts => step_of_emit hq hf hj hk hlimit hc haccepts,
    fun hk hpos => step_of_nextRun hq hf hj hk hpos, fun hk hzero => step_of_reportEnd hq hf hk hzero⟩

/-- Settles O43: a refusal uses up the host's answer alone, by induction on the refusals. -/
theorem untakenByteStallsTheReport : Obligations.UntakenByteStallsTheReport := by
  intro s n as
  induction n generalizing s with
  | zero =>
    intro _ _ _ _ _ _ haccepts
    have has : s.env.accepts = as := haccepts
    subst has
    exact steps_zero s
  | succ n ih =>
    intro hq hf hj hlimit hk hc haccepts
    have hstall : step s = .next (s.withEnv { s.env with accepts := List.replicate n false ++ as }) :=
      step_of_emit hq hf hj hk hlimit hc haccepts
    rw [steps_succ hstall]
    exact ih _ hq hf hj hlimit hk hc rfl

/-! ## The bytes of a walk -/

/-- The bytes emitted by walking the samples, most recent first, from a count of `c` in a group of `r`
(44_decimation_filter.md R202). -/
def emitted (r : Nat) : Nat → List Byte → List Byte
  | _, [] => []
  | c, x :: xs => if c + 1 = r then x :: emitted r 0 xs else emitted r (c + 1) xs

theorem emitted_of_complete {r c : Nat} (h : c + 1 = r) (x : Byte) (xs : List Byte) :
    emitted r c (x :: xs) = x :: emitted r 0 xs := if_pos h

theorem emitted_of_short {r c : Nat} (h : c + 1 ≠ r) (x : Byte) (xs : List Byte) :
    emitted r c (x :: xs) = emitted r (c + 1) xs := if_neg h

/-- The closed form of the walk: the bytes at every `r`-th position, counted from `c` samples before the list. -/
theorem emitted_eq_map {r : Nat} (xs : List Byte) : ∀ {c : Nat}, c < r →
    emitted r c xs = (List.range ((c + xs.length) / r)).map fun n => xs.getD ((n + 1) * r - 1 - c) 0 := by
  induction xs with
  | nil =>
    intro c hc
    rw [List.length_nil, Nat.add_zero, Nat.div_eq_of_lt hc]
    rfl
  | cons x xs ih =>
    intro c hc
    by_cases hgroup : c + 1 = r
    · have hcount : (c + (x :: xs).length) / r = xs.length / r + 1 := by
        rw [List.length_cons, ← Nat.add_div_right _ (Nat.lt_of_le_of_lt (Nat.zero_le c) hc)]
        congr 1
        omega
      rw [emitted_of_complete hgroup, ih (by omega), hcount, List.range_succ_eq_map, List.map_cons, List.map_map,
        Nat.zero_add]
      congr 1
      · simp [← hgroup]
      · refine List.map_congr_left fun n _ => ?_
        have hindex : (n + 1 + 1) * r - 1 - c = (n + 1) * r - 1 - 0 + 1 := by
          have hle : r ≤ (n + 1) * r := Nat.le_mul_of_pos_left r (Nat.succ_pos n)
          rw [Nat.succ_mul (n + 1)]
          omega
        simp only [Function.comp, Nat.succ_eq_add_one, hindex, List.getD_cons_succ]
    · have hcount : (c + (x :: xs).length) / r = (c + 1 + xs.length) / r := by
        rw [List.length_cons, Nat.add_right_comm]
        rfl
      rw [emitted_of_short hgroup, ih (by omega), hcount]
      refine List.map_congr_left fun n _ => ?_
      have hindex : (n + 1) * r - 1 - c = (n + 1) * r - 1 - (c + 1) + 1 := by
        have hle : r ≤ (n + 1) * r := Nat.le_mul_of_pos_left r (Nat.succ_pos n)
        omega
      rw [hindex, List.getD_cons_succ]

/-- From an empty count the walk is the closed form of 44_decimation_filter.md R204. -/
theorem emitted_eq_decimate {r : Nat} (hr : 1 ≤ r) (xs : List Byte) : emitted r 0 xs = decimate r xs := by
  rw [emitted_eq_map xs hr, Nat.zero_add]
  rfl

theorem length_decimate (r : Nat) (xs : List Byte) : (decimate r xs).length = xs.length / r := by
  rw [decimate, List.length_map, List.length_range]

/-! ## The whole report -/

/-- The samples that a report with the registers `r` has not walked yet, most recent first. -/
def unwalked (m : Memory) (r : Report) : List Byte :=
  List.replicate r.k (m.read r.j).value ++ match r.j with | 0 => [] | j + 1 => newestFirst m j

theorem unwalked_of_full (m : Memory) (j c : Nat) : unwalked m ⟨j, (m.read j).count, c⟩ = newestFirst m j := by
  cases j <;> simp [unwalked, newestFirst, samplesUpTo]

theorem unwalked_of_pos (m : Memory) {r : Report} (hk : 0 < r.k) (c : Nat) :
    unwalked m r = (m.read r.j).value :: unwalked m ⟨r.j, r.k - 1, c⟩ := by
  obtain ⟨n, hn⟩ : ∃ n, r.k = n + 1 := ⟨r.k - 1, by omega⟩
  simp only [unwalked, hn, List.replicate_succ, List.cons_append, Nat.add_sub_cancel]

theorem unwalked_of_nextRun (m : Memory) {r : Report} (hk : r.k = 0) {j : Nat} (hj : r.j = j + 1) (c : Nat) :
    unwalked m r = unwalked m ⟨j, (m.read j).count, c⟩ := by
  rw [unwalked_of_full]
  simp only [unwalked, hk, hj, List.replicate_zero, List.nil_append]

/-- A report in progress whose walk no limit stops. -/
structure Walking (s : State) : Prop where
  report : s.seq = .report
  no_fault : s.fault = .none
  slot : s.rep.j < 3500
  group : s.rep.c < s.ts.capRate
  limit : Within s.params s.ts.capRate

/-- The bytes that the rest of a report emits. -/
def toEmit (s : State) : List Byte := emitted s.ts.capRate s.rep.c (unwalked s.cap.runs s.rep)

/-- The report of `s` at its end: in IDLE, with the bytes `bs` written and the answers `as` of the host left. -/
def reported (s : State) (r : Report) (as : List Bool) (bs : List Byte) : State :=
  (((s.withRep r).withSeq .idle).withEnv { s.env with accepts := as }).writeOut bs

/-- The report of `s` ends when the host takes its bytes. -/
def Reports (s : State) : Prop :=
  ∀ as, s.env.accepts = List.replicate (toEmit s).length true ++ as →
    ∃ n r, steps n s = .next (reported s r as (toEmit s))

/-- The report after the host has taken the byte of a completed group. -/
def afterTaken (s : State) (as : List Bool) : State :=
  ((s.withEnv { s.env with accepts := as }).writeOut [(s.cap.runs.read s.rep.j).value]).withRep
    ⟨s.rep.j, s.rep.k - 1, 0⟩

/-- The byte taken is the first of those that the report writes. -/
theorem reported_afterTaken (s : State) (r : Report) (as as' : List Bool) (bs : List Byte) :
    reported (afterTaken s as') r as bs = reported s r as ((s.cap.runs.read s.rep.j).value :: bs) := by
  simp only [reported, afterTaken, State.writeOut, State.withRep, State.withSeq, State.withEnv, List.append_assoc,
    List.singleton_append]

theorem toEmit_of_complete {s : State} (hk : 0 < s.rep.k) (hc : s.rep.c + 1 = s.ts.capRate) (as : List Bool) :
    toEmit s = (s.cap.runs.read s.rep.j).value :: toEmit (afterTaken s as) := by
  rw [toEmit, unwalked_of_pos _ hk 0, emitted_of_complete hc]
  rfl

theorem Walking.afterTaken {s : State} (h : Walking s) (as : List Bool) : Walking (afterTaken s as) :=
  ⟨h.report, h.no_fault, h.slot, Nat.lt_of_le_of_lt (Nat.zero_le _) h.group, h.limit⟩

/-- A report whose walk takes one sample off reports when the rest of it does. -/
theorem reports_of_sample {s : State} (h : Walking s) (hk : 0 < s.rep.k)
    (hrest : ∀ t, Walking t → t.rep.j = s.rep.j → t.rep.k = s.rep.k - 1 → Reports t) : Reports s := by
  intro as haccepts
  have hlimit : Within s.params (s.rep.c + 1) := h.limit.mono h.group
  by_cases hc : s.rep.c + 1 = s.ts.capRate
  · rw [toEmit_of_complete hk hc [], List.length_cons, List.replicate_succ] at haccepts
    obtain ⟨as', htaken, hothers⟩ : ∃ as', s.env.accepts = true :: as' ∧
        as' = List.replicate (toEmit (afterTaken s [])).length true ++ as := ⟨_, haccepts, rfl⟩
    have hstep : step s = .next (afterTaken s as') :=
      step_of_emit h.report h.no_fault h.slot hk hlimit hc htaken
    obtain ⟨n, r, hsteps⟩ := hrest _ (h.afterTaken as') rfl rfl as hothers
    refine ⟨n + 1, r, ?_⟩
    rw [steps_succ hstep, hsteps, reported_afterTaken, ← toEmit_of_complete hk hc]
  · have hbytes : toEmit s = emitted s.ts.capRate (s.rep.c + 1)
        (unwalked s.cap.runs ⟨s.rep.j, s.rep.k - 1, s.rep.c + 1⟩) := by
      rw [toEmit, unwalked_of_pos _ hk (s.rep.c + 1), emitted_of_short hc]
    rw [hbytes] at haccepts
    have hstep := step_of_walk h.report h.no_fault hk hlimit hc
    have hgroup : s.rep.c + 1 < s.ts.capRate := Nat.lt_of_le_of_ne h.group hc
    obtain ⟨n, r, hsteps⟩ := hrest (s.withRep ⟨s.rep.j, s.rep.k - 1, s.rep.c + 1⟩)
      ⟨h.report, h.no_fault, h.slot, hgroup, h.limit⟩ rfl rfl as haccepts
    refine ⟨n + 1, r, ?_⟩
    rw [steps_succ hstep, hbytes]
    exact hsteps

/-- Every report ends, by induction on the runs and, within a run, on its samples. -/
theorem reports_of_walking (j k : Nat) {s : State} (h : Walking s) (hj : s.rep.j = j) (hk : s.rep.k = k) :
    Reports s := by
  match j, k with
  | 0, 0 =>
    intro as haccepts
    have hbytes : toEmit s = [] := by simp [toEmit, unwalked, hj, hk, emitted]
    rw [hbytes] at haccepts
    have has : s.env.accepts = as := haccepts
    refine ⟨1, s.rep, ?_⟩
    rw [steps_one, step_of_reportEnd h.report h.no_fault hk hj, hbytes, ← has, reported, State.writeOut_nil]
    rfl
  | j + 1, 0 =>
    intro as haccepts
    have hslot : j < 3500 := by
      have hlt := h.slot
      omega
    have hstep := step_of_nextRun h.report h.no_fault h.slot hk (by omega)
    have hbytes : toEmit s = toEmit (s.withRep ⟨j, (s.cap.runs.read j).count, s.rep.c⟩) := by
      rw [toEmit, unwalked_of_nextRun _ hk hj s.rep.c]
      rfl
    rw [hbytes] at haccepts
    rw [hj, Nat.add_sub_cancel] at hstep
    obtain ⟨n, r, hsteps⟩ := reports_of_walking j (s.cap.runs.read j).count
      (s := s.withRep ⟨j, (s.cap.runs.read j).count, s.rep.c⟩)
      ⟨h.report, h.no_fault, hslot, h.group, h.limit⟩ rfl rfl as haccepts
    refine ⟨n + 1, r, ?_⟩
    rw [steps_succ hstep, hbytes]
    exact hsteps
  | j, k + 1 =>
    exact reports_of_sample h (by omega) fun t ht htj htk =>
      reports_of_walking j k ht (htj.trans hj) (by omega)
termination_by (j, k)

/-- The report from its set-up, with the bytes it emits in their closed form. -/
theorem steps_of_report {s : State} {as : List Bool} (hq : s.seq = .report) (hf : s.fault = .none)
    (hcursor : s.cap.cursor < 3500) (hrep : s.rep = ⟨s.cap.cursor, (s.cap.runs.read s.cap.cursor).count, 0⟩)
    (hrate : 1 ≤ s.ts.capRate) (hlimit : Within s.params s.ts.capRate)
    (haccepts : s.env.accepts = List.replicate (countUpTo s.cap.runs s.cap.cursor / s.ts.capRate) true ++ as) :
    ∃ n r, steps n s = .next (reported s r as (decimate s.ts.capRate (newestFirst s.cap.runs s.cap.cursor))) := by
  have hbytes : toEmit s = decimate s.ts.capRate (newestFirst s.cap.runs s.cap.cursor) := by
    rw [toEmit, hrep, unwalked_of_full, emitted_eq_decimate hrate]
  have hlen : (toEmit s).length = countUpTo s.cap.runs s.cap.cursor / s.ts.capRate := by
    rw [hbytes, length_decimate, newestFirst, List.length_reverse, length_samplesUpTo]
  have hwalking : Walking s := ⟨hq, hf, by rw [hrep]; exact hcursor, by rw [hrep]; exact hrate, hlimit⟩
  rw [← hbytes]
  exact reports_of_walking _ _ hwalking rfl rfl as (by rw [hlen]; exact haccepts)

/-- Settles O44: the walk from the set-up emits the closed form and ends in IDLE. -/
theorem reportEmitsEveryRateThSample : Obligations.ReportEmitsEveryRateThSample :=
  fun _ _ hq hf hcursor hrep hrate hlimit haccepts => steps_of_report hq hf hcursor hrep hrate hlimit haccepts

/-! ## From the ARM byte to the end of the report -/

theorem steps_trans {m n : Nat} {s t u : State} (h : steps m s = .next t) (h' : steps n t = .next u) :
    steps (m + n) s = .next u :=
  (steps_add h).trans h'

/-- The ARM byte of the block's map, in an aligned framer, is dispatched at once. -/
theorem step_of_arm_byte {s : State} {rest : List LinkEvent} (hready : Ready s) (hframe : s.frame = [])
    (hcmd : s.cmd = .byte s.params.opcodes.arm :: rest) (hdistinct : s.params.opcodes.Distinct) :
    step s = exec .arm (s.withCmd rest) := by
  have hdecode : decodeWith s.params.opcodes.byte [s.params.opcodes.arm] = .ok (.arm, []) :=
    decodeWith_encodeWith hdistinct (i := .arm) rfl []
  rw [step_of_completed hready hcmd (by rw [hframe]; exact hdecode), withFrame_nil_of_aligned hframe]

/-- From CAP_FIRST to IDLE: a capture that its budget stops, and its report. -/
theorem steps_of_capture_and_report {s : State} {x : Byte} {xs ys : List Byte} {bs as : List Bool}
    (hq : s.seq = .capFirst) (hf : s.fault = .none) (hwf : s.cap.runs.wf = true)
    (hlimit : s.params.counterLimit = none) (hbudget : (x :: xs).length = max 1 s.ts.capBudget)
    (hruns : runCount (x :: xs).dropLast ≤ 3499) (hrate : 1 ≤ s.ts.capRate)
    (hpolls : s.env.polls = (x :: xs) ++ ys) (hstops : s.env.stops = List.replicate (x :: xs).length false ++ bs)
    (haccepts : s.env.accepts = List.replicate ((x :: xs).length / s.ts.capRate) true ++ as) :
    ∃ n c r, Records s.ts.capBudget c (x :: xs) ∧
      steps n s = .next (reported ((s.withCap c).withEnv { s.env with polls := ys, stops := bs }) r as
        (decimate s.ts.capRate (x :: xs).reverse)) := by
  have hstops' : s.env.stops = List.replicate xs.length false ++ (false :: bs) := by
    rw [hstops, List.length_cons, List.replicate_succ', List.append_assoc]
    rfl
  obtain ⟨c, hcapture, hc⟩ := steps_of_capture hq hf hwf hlimit (Nat.le_of_eq hbudget) hruns hpolls hstops'
  have hcount : countUpTo c.runs c.cursor = (x :: xs).length := by rw [hc.ok.sum_eq, hc.taken_eq]
  have hdone : s.ts.capBudget ≤ c.taken := by rw [hc.taken_eq, hbudget]; exact Nat.le_max_right _ _
  have hstop := anyStopConditionStartsTheReport
    (((s.withSeq .capLoop).withCap c).withEnv { s.env with polls := ys, stops := false :: bs }) false bs rfl hf
    hc.ok.cursor_lt rfl (.inr (.inl hdone))
  obtain ⟨n, r, hreport⟩ := steps_of_report (as := as)
    (s := (((s.withSeq .report).withCap c).withRep ⟨c.cursor, (c.runs.read c.cursor).count, 0⟩).withEnv
      { s.env with polls := ys, stops := bs })
    rfl hf hc.ok.cursor_lt rfl hrate (within_of_none hlimit _) (by rw [← hcount] at haccepts; exact haccepts)
  refine ⟨_, c, r, hc, (steps_trans (steps_trans hcapture ((steps_one _).trans hstop)) hreport).trans ?_⟩
  rw [← hc.samples]
  rfl

/-- Settles O46: the ARM byte starts the capture at its latches, the budget stops it, and the report walks what it has
recorded. -/
theorem armCapturesAndReportsTheRequestedSamples : Obligations.ArmCapturesAndReportsTheRequestedSamples := by
  intro s xs ys rest bs as r hready hframe hcmd hdistinct hwf hlimit hvalid hrate hle hlt hnowait hlen hruns hpolls
    hstops haccepts
  obtain ⟨x, xs, rfl⟩ : ∃ x xs', xs = x :: xs' := List.exists_cons_of_length_pos (by omega)
  have hnotrigger : ¬ ((s.withCmd rest).cfg.triggerEnabled = true ∧ (s.withCmd rest).cfg.triggerMask ≠ 0) := by
    rintro ⟨henabled, hmask⟩
    rcases hnowait with h | h
    · exact Bool.false_ne_true (h.symm.trans henabled)
    · exact hmask h
  have harm := armLatchesConfigurationAndStarts (s.withCmd rest) r hvalid hle hlt (within_of_none hlimit _)
  rw [if_neg hnotrigger, ← step_of_arm_byte hready hframe hcmd hdistinct, ← steps_one] at harm
  have hdrop : runCount (x :: xs).dropLast ≤ 3499 := by
    refine Nat.le_trans ?_ hruns
    conv_rhs => rw [← List.dropLast_append_getLast (List.cons_ne_nil x xs)]
    exact runCount_le_append _ _
  obtain ⟨n, c, rep, hc, hsteps⟩ := steps_of_capture_and_report (ys := ys) (bs := bs) (as := as) (s := {
      s.withCmd rest with
      ts := ⟨s.cfg.triggerMask, s.cfg.triggerValue, s.cfg.triggerEnabled, r, s.cfg.sampleCount * r⟩
      seq := .capFirst }) rfl hready.no_fault hwf hlimit hlen hdrop hrate hpolls hstops haccepts
  refine ⟨_, _, steps_trans harm hsteps, rfl, hready.no_fault, rfl, rfl, hc.taken_eq, hc.samples, rfl, fun hcount => ?_,
    rfl, rfl⟩
  have hbudget : (x :: xs).length = s.cfg.sampleCount * r := by
    rw [hlen]
    exact Nat.max_eq_right (Nat.mul_pos (Nat.pos_of_ne_zero hcount) hrate)
  show (s.out ++ decimate r (x :: xs).reverse).length = _
  rw [List.length_append, length_decimate, List.length_reverse, hbudget, Nat.mul_div_cancel _ hrate]

end Sys2Proof.Machine
end

section
/-! PROOFS. O47, O51, O52: the sequencer's transitions, when the stop is sampled, and what is written
(42_capture_state_machine.md R150, 20_memory.md sections 2 and 5).

What each rule of the sequencer does to `seq`, `fault`, the stop levels, `out` and the parameters is said once. -/

namespace Sys2Proof.Machine

variable {s t : State}

/-! ## The effects of each rule -/

theorem exec_effects {i : Instr} (h : exec i s = .next t) :
    t.params = s.params ∧ t.env = s.env ∧ (∃ bs, t.out = s.out ++ bs) ∧
      (t.seq = s.seq ∨ t.fault = s.fault ∧ (t.seq = .trigWait ∨ t.seq = .capFirst)) := by
  by_cases hi : i = .arm
  · subst hi
    have harm : execArm s = .next t := h
    obtain ⟨r, rfl⟩ | rfl := execArm_eq_next harm
    · exact ⟨rfl, rfl, ⟨[], (List.append_nil _).symm⟩, .inl rfl⟩
    · refine ⟨rfl, rfl, ⟨[], (List.append_nil _).symm⟩, .inr ⟨rfl, ?_⟩⟩
      cases hwait : waitsForTrigger (armedLatches s.cfg) <;> simp
  · obtain ⟨c, n, he, _⟩ | ⟨c, bs, he, _⟩ := exec_other hi s <;> rw [he] at h <;> cases h
    · exact ⟨rfl, rfl, ⟨[], (List.append_nil _).symm⟩, .inl rfl⟩
    · exact ⟨rfl, rfl, ⟨bs, rfl⟩, .inl rfl⟩

/-- A step in IDLE reads a byte, and dispatches the frame it completes, if it completes one. -/
theorem idleStep_eq_next (h : idleStep s = .next t) :
    ∃ c f, t = (s.withCmd c).withFrame f ∨ ∃ i, exec i ((s.withCmd c).withFrame f) = .next t := by
  obtain ⟨c, f, hfetch, _⟩ := fetch_cases s
  refine ⟨c, f, ?_⟩
  rw [← hfetch]
  unfold idleStep at h
  split at h
  case h_1 s' hs' =>
    cases h
    rw [hs']
    exact .inl rfl
  case h_2 s' i hs' =>
    rw [hs']
    exact .inr ⟨i, h⟩

theorem idleStep_effects (h : idleStep s = .next t) :
    t.params = s.params ∧ t.env.stops = s.env.stops ∧ (∃ bs, t.out = s.out ++ bs) ∧
      (t.seq = s.seq ∨ t.fault = s.fault ∧ (t.seq = .trigWait ∨ t.seq = .capFirst)) := by
  obtain ⟨c, f, rfl | ⟨i, hexec⟩⟩ := idleStep_eq_next h
  · exact ⟨rfl, rfl, ⟨[], (List.append_nil _).symm⟩, .inl rfl⟩
  · obtain ⟨hparams, henv, hout, hseq⟩ := exec_effects hexec
    exact ⟨hparams, congrArg Env.stops henv, hout, hseq⟩

theorem trigWaitStep_effects (h : trigWaitStep s = .next t) :
    t.params = s.params ∧ t.env.stops = s.env.stops.drop 1 ∧ t.out = s.out ∧ t.fault = s.fault ∧
      (t.seq = s.seq ∨ t.seq = .capFirst) := by
  obtain ⟨ps, d, q, he, hq⟩ := trigWaitStep_cases s
  rw [he] at h
  cases h
  exact ⟨rfl, rfl, rfl, rfl, hq⟩

theorem capFirstStep_effects (h : capFirstStep s = .next t) :
    t.params = s.params ∧ t.env.stops = s.env.stops ∧ t.out = s.out ∧
      (t.seq = .capLoop ∧ t.fault = s.fault ∨ t.seq = s.seq ∧ t.fault ≠ .none ∧ ¬ Within s.params 1) := by
  obtain ⟨d, x, ⟨_, he⟩ | ⟨hover, he⟩⟩ := capFirstStep_cases s <;> rw [he] at h <;> cases h
  · exact ⟨rfl, rfl, rfl, .inl ⟨rfl, rfl⟩⟩
  · exact ⟨rfl, rfl, rfl, .inr ⟨rfl, by simp, hover⟩⟩

theorem rleUpdate_effects {x : Byte} (h : rleUpdate x s = .next t) :
    t.params = s.params ∧ t.env = s.env ∧ t.out = s.out ∧ t.seq = s.seq := by
  obtain (rfl | rfl) | ⟨_, _, rfl⟩ | ⟨_, _, m, rfl, _⟩ := rleUpdate_cases h <;> exact ⟨rfl, rfl, rfl, rfl⟩

theorem capLoopStep_effects (h : capLoopStep s = .next t) :
    t.params = s.params ∧ t.env.stops = s.env.stops.drop 1 ∧ t.out = s.out ∧
      (t.seq = s.seq ∨ t.seq = .report ∧ t.fault = s.fault) := by
  obtain ⟨d, stop, ⟨_, he⟩ | ⟨_, x, he⟩⟩ := capLoopStep_cases s <;> rw [he] at h
  · obtain ⟨_, rfl⟩ := reportInit_eq_next h
    exact ⟨rfl, rfl, rfl, .inr ⟨rfl, rfl⟩⟩
  · obtain ⟨hparams, henv, hout, hseq⟩ := rleUpdate_effects h
    exact ⟨hparams, congrArg Env.stops henv, hout, .inl hseq⟩

theorem reportStep_effects (h : reportStep s = .next t) :
    t.params = s.params ∧ t.env.stops = s.env.stops ∧ (∃ bs, t.out = s.out ++ bs ∧ bs.length ≤ 1) ∧
      (t.seq = s.seq ∨ t.seq = .idle ∧ t.fault = s.fault) := by
  have silent : s.out = s.out ++ [] ∧ ([] : List Byte).length ≤ 1 := ⟨(List.append_nil _).symm, Nat.zero_le _⟩
  obtain ⟨_, rfl⟩ | ⟨_, _, d, rfl⟩ | ⟨_, _, d, rfl⟩ | ⟨_, _, rfl⟩ | ⟨_, _, rfl⟩ | ⟨_, _, rfl⟩ := reportStep_cases h
  case inr.inr.inl => exact ⟨rfl, rfl, ⟨_, rfl, Nat.le_refl 1⟩, .inl rfl⟩
  case inr.inr.inr.inr.inr => exact ⟨rfl, rfl, ⟨[], silent⟩, .inr ⟨rfl, rfl⟩⟩
  all_goals exact ⟨rfl, rfl, ⟨[], silent⟩, .inl rfl⟩

/-! ## The statements about every step -/

/-- At a limit that one passes, the limit is zero. -/
theorem counterLimit_zero_of_not_within {p : Params} (h : ¬ Within p 1) : p.counterLimit = some 0 := by
  cases hl : p.counterLimit with
  | none => exact absurd (within_of_none hl 1) h
  | some l =>
    have hlt : ¬ 1 ≤ l := fun hle => h (within_of_le hl hle)
    rw [show l = 0 by omega]

/-- Settles O47: a rule that goes on to another state keeps the fault register, which was clear. -/
theorem sequencerTransitions : Obligations.SequencerTransitions := by
  intro s t h
  have hf := fault_none_of_step h
  rw [step_unfaulted hf] at h
  have clear {P : Prop} (hsame : t.fault = s.fault) (hfault : t.fault ≠ .none) : P :=
    absurd (hsame.trans hf) hfault
  cases hq : s.seq <;> rw [hq] at h <;>
    simp only [reduceCtorEq, false_imp_iff, forall_const, and_true, true_and]
  case idle =>
    obtain ⟨_, _, _, hseq | ⟨hsame, hseq⟩⟩ := idleStep_effects h
    · exact ⟨fun _ => hseq.trans hq, .inl (hseq.trans hq)⟩
    · exact ⟨clear hsame, .inr hseq⟩
  case trigWait =>
    obtain ⟨_, _, _, hsame, hseq⟩ := trigWaitStep_effects h
    exact ⟨clear hsame, hseq.imp_left (·.trans hq)⟩
  case capFirst =>
    obtain ⟨_, _, _, ⟨hseq, hsame⟩ | ⟨hseq, hfault, hover⟩⟩ := capFirstStep_effects h
    · exact ⟨clear hsame, .inl hseq⟩
    · exact ⟨fun _ => hseq.trans hq, .inr ⟨hseq.trans hq, hfault, counterLimit_zero_of_not_within hover⟩⟩
  case capLoop =>
    obtain ⟨_, _, _, hseq | ⟨hseq, hsame⟩⟩ := capLoopStep_effects h
    · exact ⟨fun _ => hseq.trans hq, .inl (hseq.trans hq)⟩
    · exact ⟨clear hsame, .inr hseq⟩
  case report =>
    obtain ⟨_, _, _, hseq | ⟨hseq, hsame⟩⟩ := reportStep_effects h
    · exact ⟨fun _ => hseq.trans hq, .inl (hseq.trans hq)⟩
    · exact ⟨clear hsame, .inr hseq⟩

/-- Settles O51: the rules of TRIG_WAIT and CAP_LOOP take one stop level, the others none. -/
theorem stopIsSampledAtBoundariesOnly : Obligations.StopIsSampledAtBoundariesOnly := by
  intro s t h
  rw [step_unfaulted (fault_none_of_step h)] at h
  cases hq : s.seq <;> rw [hq] at h
  case idle =>
    obtain ⟨_, hstops, _⟩ := idleStep_effects h
    exact ⟨fun _ _ => hstops, by simp⟩
  case trigWait =>
    obtain ⟨_, hstops, _⟩ := trigWaitStep_effects h
    exact ⟨fun hne => absurd rfl hne, fun _ => hstops⟩
  case capFirst =>
    obtain ⟨_, hstops, _⟩ := capFirstStep_effects h
    exact ⟨fun _ _ => hstops, by simp⟩
  case capLoop =>
    obtain ⟨_, hstops, _⟩ := capLoopStep_effects h
    exact ⟨fun _ hne => absurd rfl hne, fun _ => hstops⟩
  case report =>
    obtain ⟨_, hstops, _⟩ := reportStep_effects h
    exact ⟨fun _ _ => hstops, by simp⟩

/-- Settles O52: a command appends its reply, a REPORT step at most one byte, and the other rules nothing. -/
theorem outputOnlyGrowsAndParametersStay : Obligations.OutputOnlyGrowsAndParametersStay := by
  intro s t h
  rw [step_unfaulted (fault_none_of_step h)] at h
  have silent {P Q : Prop} (hout : t.out = s.out) :
      ∃ bs, t.out = s.out ++ bs ∧ (P → bs.length ≤ 1) ∧ (P → Q → bs = []) :=
    ⟨[], by rw [hout, List.append_nil], fun _ => Nat.zero_le _, fun _ _ => rfl⟩
  cases hq : s.seq <;> rw [hq] at h
  case idle =>
    obtain ⟨hparams, _, ⟨bs, hout⟩, _⟩ := idleStep_effects h
    exact ⟨hparams, bs, hout, fun hne => absurd rfl hne, fun hne => absurd rfl hne⟩
  case trigWait =>
    obtain ⟨hparams, _, hout, _⟩ := trigWaitStep_effects h
    exact ⟨hparams, silent hout⟩
  case capFirst =>
    obtain ⟨hparams, _, hout, _⟩ := capFirstStep_effects h
    exact ⟨hparams, silent hout⟩
  case capLoop =>
    obtain ⟨hparams, _, hout, _⟩ := capLoopStep_effects h
    exact ⟨hparams, silent hout⟩
  case report =>
    obtain ⟨hparams, _, ⟨bs, hout, hlen⟩, _⟩ := reportStep_effects h
    exact ⟨hparams, bs, hout, fun _ => hlen, fun _ hne => absurd rfl hne⟩

end Sys2Proof.Machine
end

section
/-! PROOFS. O54: an answer drawn past the listed ones acts as a listed one (20_memory.md sections 3 and 5,
60_exceptions.md section 6).

The answers a step gets are appended to the listed ones. A rule that asks for an answer then gets the same one, and
leaves the same state but for `env`; a rule that asks for none does not see the change at all. -/

namespace Sys2Proof.Machine

/-! ## Updates that the framer and the commands do not see -/

/-- `g` changes State outside what a step in IDLE reads, and commutes with every write it makes. -/
structure OutsideCommands (g : State → State) : Prop where
  params : ∀ s, (g s).params = s.params
  cfg : ∀ s, (g s).cfg = s.cfg
  frame : ∀ s, (g s).frame = s.frame
  cmd : ∀ s, (g s).cmd = s.cmd
  withCfg : ∀ s c, (g s).withCfg c = g (s.withCfg c)
  withTs : ∀ s l, (g s).withTs l = g (s.withTs l)
  withSeq : ∀ s q, (g s).withSeq q = g (s.withSeq q)
  withFrame : ∀ s f, (g s).withFrame f = g (s.withFrame f)
  withCmd : ∀ s c, (g s).withCmd c = g (s.withCmd c)
  writeOut : ∀ s bs, (g s).writeOut bs = g (s.writeOut bs)
  raiseFault : ∀ s r, (g s).raiseFault r = g (s.raiseFault r)

namespace OutsideCommands

variable {g : State → State} (hg : OutsideCommands g) (s : State)

include hg

theorem underLimit_comm (k : Counter) (n : Nat) (r : Result) :
    underLimit k n (g s) (onNext g r) = onNext g (underLimit k n s r) := by
  simp only [underLimit, hg.params, hg.raiseFault, apply_ite (onNext g), onNext_next]

theorem execArm_comm : execArm (g s) = onNext g (execArm s) := by
  simp only [execArm, hg.cfg, hg.raiseFault, hg.withTs, hg.withSeq, apply_ite (onNext g), ← hg.underLimit_comm,
    onNext_next]

/-- A setter of a trigger stage writes the configuration alone. -/
theorem onAlias_comm {f : State → State} (hf : ∀ s, f (g s) = g (f s)) : onAlias f (g s) = onNext g (onAlias f s) := by
  simp only [onAlias, hg.params, hf, apply_ite g, onNext_next]

theorem setMask_comm (w : Word) : setMask w (g s) = g (setMask w s) := by simp only [setMask, hg.cfg, hg.withCfg]

theorem setValue_comm (w : Word) : setValue w (g s) = g (setValue w s) := by simp only [setValue, hg.cfg, hg.withCfg]

theorem setEnable_comm (w : Word) : setEnable w (g s) = g (setEnable w s) := by
  simp only [setEnable, hg.cfg, hg.withCfg]

/-- A command may be dispatched before the update or after it. -/
theorem exec_comm (i : Instr) : exec i (g s) = onNext g (exec i s) := by
  cases i with
  | reset | xon | xoff | unknown => rfl
  | arm => exact hg.execArm_comm s
  | queryId => exact congrArg Host.Outcome.next (hg.writeOut s _)
  | queryMetadata => simp only [exec, execQueryMetadata, hg.params, hg.writeOut, onNext_next]
  | setDivider d =>
    simp only [exec, execSetDivider, ← hg.underLimit_comm, hg.params, hg.cfg, hg.withCfg, onNext_next]
  | setCaptureSize a b =>
    simp only [exec, execSetCaptureSize, ← hg.underLimit_comm, hg.cfg, hg.withCfg, onNext_next]
  | setFlags f => simp only [exec, execSetFlags, hg.cfg, hg.withCfg, onNext_next]
  | setDelayCount n => simp only [exec, execSetDelayCount, ← hg.underLimit_comm, hg.cfg, hg.withCfg, onNext_next]
  | setReadCount n => simp only [exec, execSetReadCount, ← hg.underLimit_comm, hg.cfg, hg.withCfg, onNext_next]
  | setTriggerMask0 w => exact congrArg Host.Outcome.next (hg.setMask_comm s w)
  | setTriggerValue0 w => exact congrArg Host.Outcome.next (hg.setValue_comm s w)
  | setTriggerConfig0 w => exact congrArg Host.Outcome.next (hg.setEnable_comm s w)
  | setTriggerMask1 w | setTriggerMask2 w | setTriggerMask3 w => exact hg.onAlias_comm s fun s => hg.setMask_comm s w
  | setTriggerValue1 w | setTriggerValue2 w | setTriggerValue3 w => exact hg.onAlias_comm s fun s => hg.setValue_comm s w
  | setTriggerConfig1 w | setTriggerConfig2 w | setTriggerConfig3 w =>
    exact hg.onAlias_comm s fun s => hg.setEnable_comm s w

theorem takeByte_comm (b : Byte) : takeByte b (g s) = (g (takeByte b s).1, (takeByte b s).2) := by
  simp only [takeByte, hg.params, hg.frame, hg.withFrame]
  cases decodeWith s.params.opcodes.byte (s.frame ++ [b]) <;> rfl

theorem fetch_comm : fetch (g s) = (g (fetch s).1, (fetch s).2) := by
  simp only [fetch, hg.cmd, hg.withCmd]
  split
  · rfl
  · rfl
  · exact hg.takeByte_comm (s.withCmd _) _

/-- A step in IDLE may be taken before the update or after it. -/
theorem idleStep_comm : idleStep (g s) = onNext g (idleStep s) := by
  simp only [idleStep, hg.fetch_comm]
  rcases fetch s with ⟨s', _ | i⟩
  · rfl
  · exact hg.exec_comm s' i

end OutsideCommands

theorem outsideCommands_withEnv (e : Env) : OutsideCommands (·.withEnv e) := by
  constructor <;> intros <;> rfl

/-! ## Rules that ask for no answer -/

/-- `r'` is `r`, but for the environment's lists of the next state. -/
def SameButEnv (r' r : Result) : Prop := ∃ e, r' = onNext (·.withEnv e) r

theorem sameButEnv_ite {P : Prop} [Decidable P] {a' a b' b : Result} (ha : SameButEnv a' a) (hb : SameButEnv b' b) :
    SameButEnv (if P then a' else b') (if P then a else b) := by
  split
  · exact ha
  · exact hb

section AsksForNone

variable (s : State) (e : Env)

theorem underLimit_withEnv (k : Counter) (n : Nat) (r : Result) :
    underLimit k n (s.withEnv e) (onNext (·.withEnv e) r) = onNext (·.withEnv e) (underLimit k n s r) :=
  (outsideCommands_withEnv e).underLimit_comm s k n r

theorem rleUpdate_withEnv (x : Byte) : rleUpdate x (s.withEnv e) = onNext (·.withEnv e) (rleUpdate x s) := by
  simp only [rleUpdate, State.withEnv_cap]
  cases openRun x s.cap with
  | none => rfl
  | some c =>
    cases hr : bufRead c.runs c.cursor with
    | none => simp only [hr, onNext_fault]
    | some r =>
      simp only [hr, ← underLimit_withEnv]
      cases countSample x r c <;> rfl

theorem reportInit_withEnv : reportInit (s.withEnv e) = onNext (·.withEnv e) (reportInit s) := by
  simp only [reportInit, State.withEnv_cap]
  cases bufRead s.cap.runs s.cap.cursor <;> rfl

theorem nextRun_withEnv : nextRun (s.withEnv e) = onNext (·.withEnv e) (nextRun s) := by
  simp only [nextRun, State.withEnv_cap, State.withEnv_rep]
  cases bufRead s.cap.runs (s.rep.j - 1) <;> rfl

end AsksForNone

/-! ## Rules that ask for one -/

section AsksForAnswers

variable {s : State} {e : Env}

/-- The port's answer, appended to the listed ones, is the answer that a poll gets. -/
theorem portRead_appended (h : e.polls = s.env.polls ++ [(portRead s).1]) :
    ∃ e', portRead (s.withEnv e) = ((portRead s).1, (portRead s).2.withEnv e') := by
  obtain ⟨d, hd⟩ := portRead_state s
  obtain ⟨rest, hrest⟩ : ∃ rest, e.polls = (portRead s).1 :: rest := by
    cases hpolls : s.env.polls with
    | nil => exact ⟨[], by rw [h, hpolls, List.nil_append]⟩
    | cons b rest => exact ⟨_, by rw [h, hpolls, portRead_listed hpolls, List.cons_append]⟩
  exact ⟨{ e with polls := rest }, by rw [portRead_listed (s := s.withEnv e) hrest, hd]; rfl⟩

/-- The stop level, appended to the listed ones, is the level sampled; the polls stay as they are. -/
theorem stopSampled_appended (h : e.stops = s.env.stops ++ [(stopSampled s).1]) :
    ∃ e', stopSampled (s.withEnv e) = ((stopSampled s).1, (stopSampled s).2.withEnv e') ∧ e'.polls = e.polls := by
  obtain ⟨d, hd⟩ := stopSampled_state s
  obtain ⟨rest, hrest⟩ : ∃ rest, e.stops = (stopSampled s).1 :: rest := by
    cases hstops : s.env.stops with
    | nil => exact ⟨[], by rw [h, hstops, List.nil_append]⟩
    | cons b rest => exact ⟨_, by rw [h, hstops, stopSampled_listed hstops, List.cons_append]⟩
  exact ⟨{ e with stops := rest }, by rw [stopSampled_listed (s := s.withEnv e) hrest, hd]; rfl, rfl⟩

/-- The host's answer, appended to the listed ones, is the answer to an offered byte. -/
theorem hostTakes_appended (h : e.accepts = s.env.accepts ++ [(hostTakes s).1]) :
    ∃ e', hostTakes (s.withEnv e) = ((hostTakes s).1, (hostTakes s).2.withEnv e') := by
  obtain ⟨d, hd⟩ := hostTakes_state s
  obtain ⟨rest, hrest⟩ : ∃ rest, e.accepts = (hostTakes s).1 :: rest := by
    cases haccepts : s.env.accepts with
    | nil => exact ⟨[], by rw [h, haccepts, List.nil_append]⟩
    | cons a rest => exact ⟨_, by rw [h, haccepts, hostTakes_listed haccepts, List.cons_append]⟩
  exact ⟨{ e with accepts := rest }, by rw [hostTakes_listed (s := s.withEnv e) hrest, hd]; rfl⟩

theorem emit_appended (b : Byte) (h : e.accepts = s.env.accepts ++ [(hostTakes s).1]) :
    ∃ e', emit b (s.withEnv e) = ((emit b s).1, (emit b s).2.withEnv e') := by
  obtain ⟨e', he'⟩ := hostTakes_appended h
  refine ⟨e', ?_⟩
  simp only [emit, he']
  cases (hostTakes s).1 <;> rfl

/-- A rule that samples the stop and then may poll gets both answers. -/
theorem stop_then_poll_appended (hstops : e.stops = s.env.stops ++ [(stopSampled s).1])
    (hpolls : e.polls = s.env.polls ++ [(portRead (stopSampled s).2).1]) :
    ∃ e₁ e₂, stopSampled (s.withEnv e) = ((stopSampled s).1, (stopSampled s).2.withEnv e₁) ∧
      portRead ((stopSampled s).2.withEnv e₁) =
        ((portRead (stopSampled s).2).1, (portRead (stopSampled s).2).2.withEnv e₂) := by
  obtain ⟨e₁, hstop, hsame⟩ := stopSampled_appended hstops
  obtain ⟨d, hd⟩ := stopSampled_state s
  have hkept : (stopSampled s).2.env.polls = s.env.polls := by rw [hd, State.withEnv_env]
  obtain ⟨e₂, hpoll⟩ := portRead_appended (s := (stopSampled s).2) (e := e₁) (by rw [hsame, hpolls, hkept])
  exact ⟨e₁, e₂, hstop, hpoll⟩

theorem trigWaitStep_appended (hstops : e.stops = s.env.stops ++ [(stopSampled s).1])
    (hpolls : e.polls = s.env.polls ++ [(portRead (stopSampled s).2).1]) :
    SameButEnv (trigWaitStep (s.withEnv e)) (trigWaitStep s) := by
  obtain ⟨e₁, e₂, hstop, hpoll⟩ := stop_then_poll_appended hstops hpolls
  simp only [trigWaitStep, hstop, hpoll, State.withEnv_ts]
  exact sameButEnv_ite ⟨e₁, rfl⟩ (sameButEnv_ite ⟨e₂, rfl⟩ ⟨e₂, rfl⟩)

theorem capLoopStep_appended (hstops : e.stops = s.env.stops ++ [(stopSampled s).1])
    (hpolls : e.polls = s.env.polls ++ [(portRead (stopSampled s).2).1]) :
    SameButEnv (capLoopStep (s.withEnv e)) (capLoopStep s) := by
  obtain ⟨e₁, e₂, hstop, hpoll⟩ := stop_then_poll_appended hstops hpolls
  simp only [capLoopStep, pollStep, hstop, hpoll, State.withEnv_ts, State.withEnv_cap]
  exact sameButEnv_ite ⟨e₁, reportInit_withEnv _ e₁⟩ ⟨e₂, rleUpdate_withEnv _ e₂ _⟩

theorem capFirstStep_appended (hpolls : e.polls = s.env.polls ++ [(portRead s).1]) :
    SameButEnv (capFirstStep (s.withEnv e)) (capFirstStep s) := by
  obtain ⟨e', hpoll⟩ := portRead_appended hpolls
  refine ⟨e', ?_⟩
  rw [capFirstStep_eq, capFirstStep_eq, hpoll, ← underLimit_withEnv]
  rfl

theorem emitSample_appended (haccepts : e.accepts = s.env.accepts ++ [(hostTakes s).1]) :
    SameButEnv (emitSample (s.withEnv e)) (emitSample s) := by
  simp only [emitSample, State.withEnv_cap, State.withEnv_rep]
  cases bufRead s.cap.runs s.rep.j with
  | none => exact ⟨e, rfl⟩
  | some r =>
    obtain ⟨e', hemit⟩ := emit_appended r.value haccepts
    refine ⟨e', ?_⟩
    simp only [hemit]
    split <;> rfl

theorem underLimit_sameButEnv {r' r : Result} (k : Counter) (n : Nat) (h : SameButEnv r' r) :
    SameButEnv (underLimit k n (s.withEnv e) r') (underLimit k n s r) := by
  unfold underLimit
  exact sameButEnv_ite ⟨e, rfl⟩ h

theorem reportStep_appended (haccepts : e.accepts = s.env.accepts ++ [(hostTakes s).1]) :
    SameButEnv (reportStep (s.withEnv e)) (reportStep s) := by
  have hwalk : SameButEnv (walkSample (s.withEnv e)) (walkSample s) :=
    underLimit_sameButEnv _ _ (sameButEnv_ite (emitSample_appended haccepts) ⟨e, rfl⟩)
  exact sameButEnv_ite hwalk (sameButEnv_ite ⟨e, nextRun_withEnv s e⟩ ⟨e, rfl⟩)

end AsksForAnswers

/-- `env` with one answer appended to each list. -/
def Env.append (e : Env) (x : Byte) (stop taken : Bool) : Env :=
  { e with polls := e.polls ++ [x], stops := e.stops ++ [stop], accepts := e.accepts ++ [taken] }

/-- The answers to append are those that the rule of the state asks for. -/
theorem step_appended {s : State} (hf : s.fault = .none) :
    ∃ x stop taken, SameButEnv (step (s.withEnv (s.env.append x stop taken))) (step s) := by
  cases hq : s.seq with
  | idle =>
    refine ⟨0, false, false, s.env.append 0 false false, ?_⟩
    have rule := fun e => step_of_idle (s := s.withEnv e) hf hq
    rw [rule, step_of_idle hf hq]
    exact (outsideCommands_withEnv _).idleStep_comm s
  | trigWait =>
    refine ⟨(portRead (stopSampled s).2).1, (stopSampled s).1, false, ?_⟩
    have rule := fun e => step_of_trigWait (s := s.withEnv e) hf hq
    rw [rule, step_of_trigWait hf hq]
    exact trigWaitStep_appended rfl rfl
  | capFirst =>
    refine ⟨(portRead s).1, false, false, ?_⟩
    have rule := fun e => step_of_capFirst (s := s.withEnv e) hf hq
    rw [rule, step_of_capFirst hf hq]
    exact capFirstStep_appended rfl
  | capLoop =>
    refine ⟨(portRead (stopSampled s).2).1, (stopSampled s).1, false, ?_⟩
    have rule := fun e => step_of_capLoop (s := s.withEnv e) hf hq
    rw [rule, step_of_capLoop hf hq]
    exact capLoopStep_appended rfl rfl
  | report =>
    refine ⟨0, false, (hostTakes s).1, ?_⟩
    have rule := fun e => step_of_report (s := s.withEnv e) hf hq
    rw [rule, step_of_report hf hq]
    exact reportStep_appended rfl

/-- Settles O54: with the appended answers the step is the same but for `env`. -/
theorem unlistedAnswersActAsListedOnes : Obligations.UnlistedAnswersActAsListedOnes := by
  intro s t h
  obtain ⟨x, stop, taken, e, he⟩ := step_appended (fault_none_of_step h)
  rw [h, onNext_next] at he
  exact ⟨x, stop, taken, e, he⟩

end Sys2Proof.Machine
end

section
/-! PROOFS. O50: what a step reads of the run buffer (20_memory.md section 1, 43_run_length_encoder.md R182,
44_decimation_filter.md R201).

`withRuns` puts another buffer in place. A step in IDLE or TRIG_WAIT does not see it; a report does not when the two
buffers agree up to `rep_j`; a capture writes the same run in both. -/

namespace Sys2Proof.Machine

/-- Another run buffer in place of the block's, and nothing else. -/
def State.withRuns (s : State) (m : Memory) : State := s.withCap { s.cap with runs := m }

theorem outsideCommands_withRuns (m : Memory) : OutsideCommands (·.withRuns m) := by
  constructor <;> intros <;> rfl

/-! ## The rules that write no run -/

section WritesNoRun

variable (s : State) (m : Memory)

@[simp] theorem State.withRuns_ts : (s.withRuns m).ts = s.ts := rfl
@[simp] theorem State.withRuns_cap : (s.withRuns m).cap = { s.cap with runs := m } := rfl
@[simp] theorem State.withRuns_rep : (s.withRuns m).rep = s.rep := rfl

theorem portRead_withRuns : portRead (s.withRuns m) = ((portRead s).1, (portRead s).2.withRuns m) := by
  cases h : s.env.polls <;> simp [portRead, State.withRuns, h] <;> rfl

theorem stopSampled_withRuns : stopSampled (s.withRuns m) = ((stopSampled s).1, (stopSampled s).2.withRuns m) := by
  cases h : s.env.stops <;> simp [stopSampled, State.withRuns, h] <;> rfl

theorem emit_withRuns (b : Byte) : emit b (s.withRuns m) = ((emit b s).1, (emit b s).2.withRuns m) := by
  have htakes : hostTakes (s.withRuns m) = ((hostTakes s).1, (hostTakes s).2.withRuns m) := by
    cases h : s.env.accepts <;> simp [hostTakes, State.withRuns, h] <;> rfl
  simp only [emit, htakes]
  cases (hostTakes s).1 <;> rfl

theorem underLimit_withRuns (k : Counter) (n : Nat) (r : Result) :
    underLimit k n (s.withRuns m) (onNext (·.withRuns m) r) = onNext (·.withRuns m) (underLimit k n s r) :=
  (outsideCommands_withRuns m).underLimit_comm s k n r

theorem trigWaitStep_withRuns : trigWaitStep (s.withRuns m) = onNext (·.withRuns m) (trigWaitStep s) := by
  simp only [trigWaitStep, stopSampled_withRuns, portRead_withRuns, State.withRuns_ts,
    apply_ite (onNext (·.withRuns m)), onNext_next]
  rfl

variable {s m}

theorem bufRead_congr {m' : Memory} {i : Nat} (h : m'.read i = m.read i) : bufRead m' i = bufRead m i := by
  simp only [bufRead, h]

theorem reportInit_withRuns (h : m.read s.cap.cursor = s.cap.runs.read s.cap.cursor) :
    reportInit (s.withRuns m) = onNext (·.withRuns m) (reportInit s) := by
  simp only [reportInit, State.withRuns_cap, bufRead_congr h]
  cases bufRead s.cap.runs s.cap.cursor <;> rfl

theorem emitSample_withRuns (h : m.read s.rep.j = s.cap.runs.read s.rep.j) :
    emitSample (s.withRuns m) = onNext (·.withRuns m) (emitSample s) := by
  simp only [emitSample, State.withRuns_cap, State.withRuns_rep, bufRead_congr h]
  cases bufRead s.cap.runs s.rep.j with
  | none => rfl
  | some r =>
    simp only [emit_withRuns]
    split <;> rfl

theorem nextRun_withRuns (h : m.read (s.rep.j - 1) = s.cap.runs.read (s.rep.j - 1)) :
    nextRun (s.withRuns m) = onNext (·.withRuns m) (nextRun s) := by
  simp only [nextRun, State.withRuns_cap, State.withRuns_rep, bufRead_congr h]
  cases bufRead s.cap.runs (s.rep.j - 1) <;> rfl

theorem walkSample_withRuns (h : m.read s.rep.j = s.cap.runs.read s.rep.j) :
    walkSample (s.withRuns m) = onNext (·.withRuns m) (walkSample s) := by
  simp only [walkSample, ← underLimit_withRuns, State.withRuns_rep, State.withRuns_ts, emitSample_withRuns h,
    apply_ite (onNext (·.withRuns m)), onNext_next]
  rfl

/-- A report reads the runs from `rep_j` down. -/
theorem reportStep_withRuns (h : ∀ j, j ≤ s.rep.j → m.read j = s.cap.runs.read j) :
    reportStep (s.withRuns m) = onNext (·.withRuns m) (reportStep s) := by
  simp only [reportStep, State.withRuns_rep, walkSample_withRuns (h _ (Nat.le_refl _)),
    nextRun_withRuns (h _ (Nat.sub_le _ 1)), apply_ite (onNext (·.withRuns m))]
  rfl

end WritesNoRun

/-! ## The rules that write one -/

/-- The outcome `r` from the buffer `m` is the next state `t` but for its buffer, `m'`, which holds the run of `t` at the
cursor, unless a fault is raised, and the other runs of `m`. -/
structure SameWrite (r : Result) (t : State) (m m' : Memory) : Prop where
  next : r = .next (t.withRuns m')
  other : ∀ k, k ≠ t.cap.cursor → m'.read k = m.read k
  written : t.fault = .none → m'.read t.cap.cursor = t.cap.runs.read t.cap.cursor

variable {s t : State} {m : Memory}

/-- A bounded counter raises the same fault over either buffer, or goes on over both. -/
theorem sameWrite_underLimit {k : Counter} {n : Nat} {r r' : Result} (h : underLimit k n s r = .next t)
    (hgo : r = .next t → ∃ m', SameWrite r' t m m') : ∃ m', SameWrite (underLimit k n (s.withRuns m) r') t m m' := by
  rcases underLimit_cases k n s r with ⟨hover, he⟩ | ⟨hwithin, he⟩ <;> rw [he] at h
  · cases h
    rcases underLimit_cases k n (s.withRuns m) r' with ⟨_, he'⟩ | ⟨hwithin', _⟩
    · exact ⟨m, he', fun _ _ => rfl, fun hfault => by cases hfault⟩
    · exact absurd hwithin' hover
  · rw [underLimit_of_within (s := s.withRuns m) hwithin]
    exact hgo h

/-- The first sample is written to slot 0 of either buffer. -/
theorem capFirstStep_withRuns (hwf : s.cap.runs.wf = true) (hm : m.wf = true) (h : capFirstStep s = .next t) :
    ∃ m', SameWrite (capFirstStep (s.withRuns m)) t m m' := by
  rw [capFirstStep_eq] at h
  rw [capFirstStep_eq, portRead_withRuns]
  refine sameWrite_underLimit h fun hstart => ?_
  cases hstart
  refine ⟨(Capture.started m (portRead s).1).runs, rfl, fun k hk => Memory.read_write_ne _ hk m, fun _ => ?_⟩
  exact (Capture.started_read_zero hm _).trans (Capture.started_read_zero hwf _).symm

/-- `rle_update` answers a next state from a run whose slot exists. -/
theorem openRun_of_rleUpdate {x : Byte} (h : rleUpdate x s = .next t) :
    ∃ c, openRun x s.cap = some c ∧ c.cursor < Config.bufferSize := by
  cases hopen : openRun x s.cap with
  | none => simp [rleUpdate, hopen] at h
  | some c =>
    refine ⟨c, rfl, ?_⟩
    by_contra hslot
    simp [rleUpdate, hopen, bufRead, hslot] at h

/-- The run that a sample is counted in is the same over either buffer, when the current runs are: it is the current run,
or an empty one started after it. -/
theorem openRun_withRuns {x : Byte} {c c' : Capture} (hwf : c.runs.wf = true) (hm : m.wf = true)
    (hcurrent : m.read c.cursor = c.runs.read c.cursor) (hopen : openRun x c = some c') :
    ∃ m', openRun x { c with runs := m } = some { c' with runs := m' } ∧ m'.wf = true ∧ c'.runs.wf = true ∧
      m'.read c'.cursor = c'.runs.read c'.cursor ∧ ∀ k, k ≠ c'.cursor → m'.read k = m.read k := by
  by_cases hx : x = c.prev
  · rw [openRun_of_eq hx] at hopen
    cases hopen
    exact ⟨m, openRun_of_eq hx, hm, hwf, hcurrent, fun _ _ => rfl⟩
  · have hslot : c.cursor + 1 < Config.bufferSize := by
      by_contra hslot
      simp [openRun, hx, bufWrite, hslot] at hopen
    rw [openRun_of_ne hx hslot] at hopen
    cases hopen
    have hm' : ({ c with runs := m } : Capture).runs.wf = true := hm
    refine ⟨_, openRun_of_ne (c := { c with runs := m }) hx hslot, Capture.opened_wf x hm' hslot,
      Capture.opened_wf x hwf hslot, ?_, fun k hk => Memory.read_write_ne _ hk m⟩
    exact (Capture.opened_read_cursor x hm').trans (Capture.opened_read_cursor x hwf).symm

/-- A sample is counted in the same run of either buffer. -/
theorem rleUpdate_withRuns {x : Byte} (hwf : s.cap.runs.wf = true) (hm : m.wf = true)
    (hcurrent : m.read s.cap.cursor = s.cap.runs.read s.cap.cursor) (h : rleUpdate x s = .next t) :
    ∃ m', SameWrite (rleUpdate x (s.withRuns m)) t m m' := by
  obtain ⟨c, hopen, hslot⟩ := openRun_of_rleUpdate h
  obtain ⟨m₁, hopen₁, hm₁, hc, hsame, hother⟩ := openRun_withRuns hwf hm hcurrent hopen
  rw [rleUpdate_of_openRun hopen hslot] at h
  rw [rleUpdate_of_openRun (s := s.withRuns m) hopen₁ hslot, hsame]
  refine sameWrite_underLimit h fun h => sameWrite_underLimit h fun hcount => ?_
  cases hcount
  have hm₁' : ({ c with runs := m₁ } : Capture).runs.wf = true := hm₁
  refine ⟨(({ c with runs := m₁ } : Capture).counted x).runs, rfl, fun k hk => ?_, fun _ => ?_⟩
  · exact (Capture.counted_read_ne x { c with runs := m₁ } hk).trans (hother k hk)
  · refine (Capture.counted_read_cursor x hm₁').trans ?_
    rw [hsame]
    exact (c.counted_read_cursor x hc).symm

theorem stopSampled_cap (s : State) : (stopSampled s).2.cap = s.cap := by
  obtain ⟨d, hd⟩ := stopSampled_state s
  rw [hd, State.withEnv_cap]

/-- The boundary test does not read the buffer; the report's set-up and the poll read the current run. -/
theorem capLoopStep_withRuns (hwf : s.cap.runs.wf = true) (hm : m.wf = true)
    (hcurrent : m.read s.cap.cursor = s.cap.runs.read s.cap.cursor) (h : capLoopStep s = .next t) :
    ∃ m', SameWrite (capLoopStep (s.withRuns m)) t m m' := by
  have hboundary : ∀ b, boundaryStop b ((stopSampled s).2.withRuns m).ts ((stopSampled s).2.withRuns m).cap =
      boundaryStop b (stopSampled s).2.ts (stopSampled s).2.cap := fun _ => rfl
  simp only [capLoopStep, stopSampled_withRuns, hboundary] at h ⊢
  split at h
  case isTrue hstop =>
    rw [← stopSampled_cap s] at hcurrent
    rw [if_pos hstop, reportInit_withRuns hcurrent, h]
    exact ⟨m, rfl, fun _ _ => rfl, fun _ => by rw [cap_of_reportInit h, hcurrent]⟩
  case isFalse hgo =>
    have hcap : (portRead (stopSampled s).2).2.cap = s.cap := (portRead_cap _).trans (stopSampled_cap s)
    rw [← hcap] at hwf hcurrent
    rw [if_neg hgo]
    simp only [pollStep, portRead_withRuns]
    exact rleUpdate_withRuns hwf hm hcurrent h

/-- A step outside CAP_FIRST and CAP_LOOP may be taken before the buffer is replaced or after it. -/
theorem step_withRuns (hf : s.fault = .none) (hfirst : s.seq ≠ .capFirst) (hloop : s.seq ≠ .capLoop)
    (hreported : s.seq = .report → ∀ j, j ≤ s.rep.j → m.read j = s.cap.runs.read j) :
    step (s.withRuns m) = onNext (·.withRuns m) (step s) := by
  cases hq : s.seq with
  | idle =>
    rw [step_of_idle hf hq, step_of_idle (s := s.withRuns m) hf hq]
    exact (outsideCommands_withRuns m).idleStep_comm s
  | trigWait =>
    rw [step_of_trigWait hf hq, step_of_trigWait (s := s.withRuns m) hf hq]
    exact trigWaitStep_withRuns s m
  | capFirst => exact absurd hq hfirst
  | capLoop => exact absurd hq hloop
  | report =>
    rw [step_of_report hf hq, step_of_report (s := s.withRuns m) hf hq]
    exact reportStep_withRuns (hreported hq)

/-! ## No run is half-written -/

/-- A sample counted leaves its run with a count of at least one. -/
theorem count_pos_of_rleUpdate {x : Byte} (hwf : s.cap.runs.wf = true) (h : rleUpdate x s = .next t) :
    t.cap = s.cap ∨ 1 ≤ (t.cap.runs.read t.cap.cursor).count := by
  obtain (rfl | rfl) | ⟨_, _, rfl⟩ | ⟨_, _, m, rfl, hnew, _⟩ := rleUpdate_cases h
  · exact .inl rfl
  · exact .inl rfl
  · refine .inr ?_
    rw [State.withCap_cap, Memory.read_write_self _ _ hwf]
    exact Nat.le_add_left 1 _
  · refine .inr ?_
    rw [State.withCap_cap, (hnew hwf).2]

theorem count_pos_of_changed {k : Nat} (hwf : s.cap.runs.wf = true) (h : step s = .next t)
    (hchange : t.cap.runs.read k ≠ s.cap.runs.read k) : 1 ≤ (t.cap.runs.read k).count := by
  have hf := fault_none_of_step h
  rcases runSlotsChangeOnlyInACapture s t k h hchange with ⟨hq, rfl⟩ | ⟨hq, rfl⟩
  · rw [step_of_capFirst hf hq] at h
    obtain ⟨d, x, ⟨_, he⟩ | ⟨_, he⟩⟩ := capFirstStep_cases s <;> rw [he] at h <;> cases h
    · rw [State.withCap_cap, Memory.read_write_self _ _ hwf]
    · exact absurd rfl hchange
  · rw [step_of_capLoop hf hq] at h
    obtain ⟨d, stop, ⟨_, he⟩ | ⟨_, x, he⟩⟩ := capLoopStep_cases s <;> rw [he] at h
    · exact absurd (by rw [cap_of_reportInit h, State.withEnv_cap]) hchange
    · refine (count_pos_of_rleUpdate ?_ h).resolve_left fun hcap => hchange (by rw [hcap, State.withEnv_cap])
      exact hwf

/-- Settles O50: a step that writes no run does not see the other buffer, and one that writes a run writes the same in
both. -/
theorem stepsReadOnlyTheCurrentRunOrTheReportedRuns : Obligations.StepsReadOnlyTheCurrentRunOrTheReportedRuns := by
  intro s t m hwf hm h
  have hf := fault_none_of_step h
  refine ⟨fun k hchange => count_pos_of_changed hwf h hchange, fun hcurrent hreported => ?_⟩
  by_cases hfirst : s.seq = .capFirst
  · rw [step_of_capFirst hf hfirst] at h
    obtain ⟨m', hwrite⟩ := capFirstStep_withRuns hwf hm h
    exact ⟨m', (step_of_capFirst (s := s.withRuns m) hf hfirst).trans hwrite.next, fun hne => absurd hfirst hne,
      hwrite.other, fun _ => hwrite.written⟩
  by_cases hloop : s.seq = .capLoop
  · rw [step_of_capLoop hf hloop] at h
    obtain ⟨m', hwrite⟩ := capLoopStep_withRuns hwf hm (hcurrent hloop) h
    exact ⟨m', (step_of_capLoop (s := s.withRuns m) hf hloop).trans hwrite.next, fun _ hne => absurd hloop hne,
      hwrite.other, fun _ => hwrite.written⟩
  have hstep := step_withRuns hf hfirst hloop hreported
  rw [h, onNext_next] at hstep
  exact ⟨m, hstep, fun _ _ => rfl, fun _ _ => rfl, fun hcapture => (hcapture.elim hfirst hloop).elim⟩

end Sys2Proof.Machine
end
